-- ==== Sys2Proof/Word.lean ====
section
/-! DEFINITION. The machine's words: bytes of the program, the 32-bit register and program-counter
words, and register numbers (spec/00_scope.md R6, R7; spec/10_state.md R20, R26). -/

namespace Sys2Proof

/-- One byte of the program: bit 7 is its most significant bit (R7). -/
abbrev Byte := BitVec 8

/-- The contents of a general register or of `rem`: XLEN = REM_WIDTH = 32 bits (R6, R20, R31). -/
abbrev Word := BitVec 32

/-- A value of the program counter: PC_WIDTH = 32 bits, unsigned (R6, R26). -/
abbrev Addr := BitVec 32

/-- The 16-bit immediate of LOAD: IMM_BITS (R6, R77). -/
abbrev Imm := BitVec 16

/-- A legal register number, 0 to 31 (R20, R22). -/
abbrev RegIdx := Fin 32

end Sys2Proof
end

