-- ==== Sys2Proof/Config.lean ====
section
/-! DEFINITION. The implementation parameters of spec/00_scope.md R6 that are plain numbers. The
parameter OPCODE_MAP stands in Sys2Proof/Decode.lean, where a repair can reach its default. -/

namespace Sys2Proof.Config

/-- NREGS: how many general registers there are; a register byte is legal below it (R6, R22). -/
abbrev nregs : Nat := 32

/-- INSN_BYTES: the nominal length of every instruction (R6, R70). -/
abbrev insnBytes : Nat := 4

/-- PROG_MAX_LEN = 2^31: the greatest program length in bytes (R6, R52). -/
abbrev progMaxLen : Nat := 2147483648

/-- 2^PC_WIDTH: the first integer the program counter cannot hold (R6, R26, R161). -/
abbrev pcLimit : Nat := 4294967296

end Sys2Proof.Config
end

