-- ==== Sys2Proof/Syntax.lean ====
section
/-! DEFINITION. The instruction set as syntax: the 16 operations, the decoder's 17 tags, and the
instructions with their operands (spec/30_encoding.md R71, R72, R73). -/

namespace Sys2Proof

/-- The 16 operations (R1, R72). -/
inductive Operation where
  | load | add | sub | mul | div | hlt | jmp | jmpf | jmpb | jmpe
  | eq | neq | gte | lte | gt | lt
  deriving DecidableEq, Repr

/-- Every operation, once. -/
def Operation.all : List Operation :=
  [.load, .add, .sub, .mul, .div, .hlt, .jmp, .jmpf, .jmpb, .jmpe,
   .eq, .neq, .gte, .lte, .gt, .lt]

/-- What the opcode decoder answers: an operation or the sentinel ILLEGAL (R72, R100). -/
inductive Tag where
  | op (o : Operation)
  | illegal
  deriving DecidableEq, Repr

/-- An instruction with the operands it fetches. Padding bytes are no part of it: their value has no
effect on any rule (R79). The four ILLEGAL rows of the opcode table are one constructor, which keeps
the opcode byte (R74, R83). -/
inductive Instr where
  /-- LOAD, format LI (R130). -/
  | load (reg : RegIdx) (imm : Imm)
  /-- ADD, format R3 (R143). -/
  | add (regA regB regDest : RegIdx)
  /-- SUB, format R3 (R144). -/
  | sub (regA regB regDest : RegIdx)
  /-- MUL, format R3 (R145). -/
  | mul (regA regB regDest : RegIdx)
  /-- DIV, format R3 (R146). -/
  | div (regA regB regDest : RegIdx)
  /-- HLT, format Z (R196). -/
  | hlt
  /-- JMP, format R1 (R163). -/
  | jmp (reg : RegIdx)
  /-- JMPF, format R1 (R164). -/
  | jmpf (reg : RegIdx)
  /-- JMPB, format R1 (R165). -/
  | jmpb (reg : RegIdx)
  /-- JMPE, format R1P (R166). -/
  | jmpe (reg : RegIdx)
  /-- EQ, format R2P (R181). -/
  | eq (regA regB : RegIdx)
  /-- NEQ, format R2P (R182). -/
  | neq (regA regB : RegIdx)
  /-- GTE, format R2P (R185). -/
  | gte (regA regB : RegIdx)
  /-- LTE, format R2P (R186). -/
  | lte (regA regB : RegIdx)
  /-- GT, format R2P (R183). -/
  | gt (regA regB : RegIdx)
  /-- LT, format R2P (R184). -/
  | lt (regA regB : RegIdx)
  /-- ILLEGAL, format Z, with its opcode byte (R74, R197). -/
  | illegal (op : Byte)
  deriving DecidableEq, Repr

/-- The decoder tag an instruction belongs to. -/
def Instr.tag : Instr → Tag
  | .load _ _ => .op .load
  | .add _ _ _ => .op .add
  | .sub _ _ _ => .op .sub
  | .mul _ _ _ => .op .mul
  | .div _ _ _ => .op .div
  | .hlt => .op .hlt
  | .jmp _ => .op .jmp
  | .jmpf _ => .op .jmpf
  | .jmpb _ => .op .jmpb
  | .jmpe _ => .op .jmpe
  | .eq _ _ => .op .eq
  | .neq _ _ => .op .neq
  | .gte _ _ => .op .gte
  | .lte _ _ => .op .lte
  | .gt _ _ => .op .gt
  | .lt _ _ => .op .lt
  | .illegal _ => .illegal

end Sys2Proof
end

