-- ==== Sys2Proof/WellFormed.lean ====
section
/-! DEFINITION. Which instructions the encoding can express. Register numbers and the immediate are
in range by their types (spec/10_state.md R22, spec/30_encoding.md R77), so the one check left is that
an ILLEGAL instruction carries one of the 240 bytes that decode to ILLEGAL (R74). -/

namespace Sys2Proof

/-- An instruction some byte sequence decodes to. ILLEGAL: "Each of the 240 byte values 16 to 255
decodes to the tag ILLEGAL" (R74). -/
def Instr.wellFormed : Instr → Bool
  | .load _ _ => true
  | .add _ _ _ => true
  | .sub _ _ _ => true
  | .mul _ _ _ => true
  | .div _ _ _ => true
  | .hlt => true
  | .jmp _ => true
  | .jmpf _ => true
  | .jmpb _ => true
  | .jmpe _ => true
  | .eq _ _ => true
  | .neq _ _ => true
  | .gte _ _ => true
  | .lte _ _ => true
  | .gt _ _ => true
  | .lt _ _ => true
  | .illegal op => decide (16 ≤ op.toNat)

end Sys2Proof
end

