-- ==== Sys2Proof/Decode.lean ====
section
/-! DEFINITION. The opcode map, the opcode decoder, the operand fetch and the decoder built from
them, total on any bytes; then the encoder, written from the same tables (spec/30_encoding.md R70 to
R83; spec/40_cycle_and_decoder.md R100, R103, R106 to R109). -/

namespace Sys2Proof

/-! ### The opcode map -/

/-- OPCODE_MAP: the operation of each opcode byte 0, 1, 2, …, in that order (R73, decision D1). -/
structure OpcodeMap where
  ops : List Operation
  deriving DecidableEq, Repr

/-- What R73 asks of an opcode map: a bijection from the bytes 0 to 15 onto the 16 operations, with
the six numbers the source fixes. -/
abbrev OpcodeMap.Valid (m : OpcodeMap) : Prop :=
  m.ops.length = 16 ∧ m.ops.Nodup ∧ (∀ o ∈ Operation.all, o ∈ m.ops) ∧
  m.ops[0]? = some .load ∧ m.ops[1]? = some .add ∧ m.ops[2]? = some .sub ∧
  m.ops[3]? = some .mul ∧ m.ops[4]? = some .div ∧ m.ops[15]? = some .lt

/-- The default opcode map, the table of R73. Bytes 5 to 14 are the spec's decision D1.
UNVERIFIED against the repository, unsafe (log entry 1). -/
def opcodeMap : OpcodeMap :=
  ⟨[.load, .add, .sub, .mul, .div, .hlt, .jmp, .jmpf, .jmpb, .jmpe,
    .eq, .neq, .gte, .lte, .gt, .lt]⟩

/-- `Decode(b)`, the opcode decoder: pure and total, "with every other byte value (16–255) mapping to
ILLEGAL" (R72, R100). -/
def decodeOpcode (m : OpcodeMap) (b : Byte) : Tag :=
  match m.ops[b.toNat]? with
  | some o => .op o
  | none => .illegal

/-! ### The operand fetch -/

/-- Why a byte sequence gives no instruction. -/
inductive Reject where
  /-- There is no opcode byte: the program has ended (R102). -/
  | noOpcodeByte
  /-- An operand byte the instruction fetches is missing (R56, R106, R109). -/
  | truncatedInstruction
  /-- A byte fetched as a register operand is 32 or more (R22, R107). -/
  | registerOutOfRange
  deriving DecidableEq, Repr

/-- `NextByte()`: the next byte and the bytes after it; a missing byte is a cut-off instruction
(R106). -/
def nextByte : List Byte → Except Reject (Byte × List Byte)
  | [] => .error .truncatedInstruction
  | b :: rest => .ok (b, rest)

/-- `NextRegIndex()`: "The presence of the byte is checked before its value" (R107); the index is
never masked or wrapped (R22). -/
def nextRegIndex (bs : List Byte) : Except Reject (RegIdx × List Byte) :=
  match nextByte bs with
  | .error r => .error r
  | .ok (b, rest) =>
    if h : b.toNat < Config.nregs then .ok (⟨b.toNat, h⟩, rest) else .error .registerOutOfRange

/-- `Next16()`: two bytes, the first the high byte; either missing is a cut-off instruction (R53,
R109). -/
def next16 : List Byte → Except Reject (Imm × List Byte)
  | hi :: lo :: rest => .ok (hi ++ lo, rest)
  | _ => .error .truncatedInstruction

/-- The operand of formats R1 and R1P: one register byte (R71). -/
def fetchR1 (mk : RegIdx → Instr) (bs : List Byte) : Except Reject Instr :=
  match nextRegIndex bs with
  | .error r => .error r
  | .ok (a, _) => .ok (mk a)

/-- The operands of format R2P: two register bytes in stream order (R71, R78). -/
def fetchR2 (mk : RegIdx → RegIdx → Instr) (bs : List Byte) : Except Reject Instr :=
  match nextRegIndex bs with
  | .error r => .error r
  | .ok (a, bs) => fetchR1 (mk a) bs

/-- The operands of format R3: three register bytes in stream order (R71, R78). -/
def fetchR3 (mk : RegIdx → RegIdx → RegIdx → Instr) (bs : List Byte) : Except Reject Instr :=
  match nextRegIndex bs with
  | .error r => .error r
  | .ok (a, bs) => fetchR2 (mk a) bs

/-- The operands of format LI: a register byte, then the two immediate bytes together (R71, R130,
R209). -/
def fetchLI (bs : List Byte) : Except Reject Instr :=
  match nextRegIndex bs with
  | .error r => .error r
  | .ok (d, bs) =>
    match next16 bs with
    | .error r => .error r
    | .ok (imm, _) => .ok (.load d imm)

/-- The operand bytes of each operation, taken in the order of increasing offset from the bytes after
the opcode (R71, R76, R78). -/
def fetchOperands (o : Operation) (bs : List Byte) : Except Reject Instr :=
  match o with
  | .load => fetchLI bs
  | .add => fetchR3 .add bs
  | .sub => fetchR3 .sub bs
  | .mul => fetchR3 .mul bs
  | .div => fetchR3 .div bs
  | .hlt => .ok .hlt
  | .jmp => fetchR1 .jmp bs
  | .jmpf => fetchR1 .jmpf bs
  | .jmpb => fetchR1 .jmpb bs
  | .jmpe => fetchR1 .jmpe bs
  | .eq => fetchR2 .eq bs
  | .neq => fetchR2 .neq bs
  | .gte => fetchR2 .gte bs
  | .lte => fetchR2 .lte bs
  | .gt => fetchR2 .gt bs
  | .lt => fetchR2 .lt bs

/-- The decoder under an opcode map: the opcode byte, then exactly the operand bytes the operation
uses (R70, R76, R103, R104). -/
def decodeWith (m : OpcodeMap) : List Byte → Except Reject Instr
  | [] => .error .noOpcodeByte
  | b :: bs =>
    match decodeOpcode m b with
    | .op o => fetchOperands o bs
    | .illegal => .ok (.illegal b)

/-- The decoder of this machine: the default opcode map (R73). -/
def decode (bs : List Byte) : Except Reject Instr := decodeWith opcodeMap bs

/-! ### How many bytes an instruction touches -/

/-- The bytes an instruction fetches, opcode byte included (the table of R76). -/
def Instr.bytesFetched : Instr → Nat
  | .load _ _ => 4
  | .add _ _ _ => 4
  | .sub _ _ _ => 4
  | .mul _ _ _ => 4
  | .div _ _ _ => 4
  | .hlt => 1
  | .jmp _ => 2
  | .jmpf _ => 2
  | .jmpb _ => 2
  | .jmpe _ => 2
  | .eq _ _ => 3
  | .neq _ _ => 3
  | .gte _ _ => 3
  | .lte _ _ => 3
  | .gt _ _ => 3
  | .lt _ _ => 3
  | .illegal _ => 1

/-- The padding bytes an instruction steps over without reading them (the table of R76, R79). -/
def Instr.bytesSteppedOver : Instr → Nat
  | .load _ _ => 0
  | .add _ _ _ => 0
  | .sub _ _ _ => 0
  | .mul _ _ _ => 0
  | .div _ _ _ => 0
  | .hlt => 0
  | .jmp _ => 0
  | .jmpf _ => 0
  | .jmpb _ => 0
  | .jmpe _ => 2
  | .eq _ _ => 1
  | .neq _ _ => 1
  | .gte _ _ => 1
  | .lte _ _ => 1
  | .gt _ _ => 1
  | .lt _ _ => 1
  | .illegal _ => 0

/-! ### The encoder -/

/-- The opcode byte of an operation under an opcode map (R73). -/
def OpcodeMap.code (m : OpcodeMap) (o : Operation) : Byte := BitVec.ofNat 8 (m.ops.idxOf o)

/-- A register operand byte (R78). -/
def regByte (r : RegIdx) : Byte := BitVec.ofNat 8 r.val

/-- The high byte of an immediate, `imm_hi` (R71). -/
def immHi (imm : Imm) : Byte := imm.extractLsb' 8 8

/-- The low byte of an immediate, `imm_lo` (R71). -/
def immLo (imm : Imm) : Byte := imm.extractLsb' 0 8

/-- The four bytes of an instruction (R70, R71), padding written as 0 by the convention of R82 (log
entry 10). -/
def encodeWith (m : OpcodeMap) : Instr → List Byte
  | .load d imm => [m.code .load, regByte d, immHi imm, immLo imm]
  | .add a b d => [m.code .add, regByte a, regByte b, regByte d]
  | .sub a b d => [m.code .sub, regByte a, regByte b, regByte d]
  | .mul a b d => [m.code .mul, regByte a, regByte b, regByte d]
  | .div a b d => [m.code .div, regByte a, regByte b, regByte d]
  | .hlt => [m.code .hlt, 0, 0, 0]
  | .jmp r => [m.code .jmp, regByte r, 0, 0]
  | .jmpf r => [m.code .jmpf, regByte r, 0, 0]
  | .jmpb r => [m.code .jmpb, regByte r, 0, 0]
  | .jmpe r => [m.code .jmpe, regByte r, 0, 0]
  | .eq a b => [m.code .eq, regByte a, regByte b, 0]
  | .neq a b => [m.code .neq, regByte a, regByte b, 0]
  | .gte a b => [m.code .gte, regByte a, regByte b, 0]
  | .lte a b => [m.code .lte, regByte a, regByte b, 0]
  | .gt a b => [m.code .gt, regByte a, regByte b, 0]
  | .lt a b => [m.code .lt, regByte a, regByte b, 0]
  | .illegal op => [op, 0, 0, 0]

/-- The encoder of this machine: the default opcode map (R73). -/
def encode (i : Instr) : List Byte := encodeWith opcodeMap i

/-! ### Words of the opcode table -/

/-- The bytes, lowest offset first, of an instruction given as the opcode table's word `W`: the opcode
byte is `W[31:24]` and the operand slots are `W[23:16]`, `W[15:8]`, `W[7:0]` (R7, R83). Bits at or above
`nbits` are 0 (log entry 7). -/
def tableWordBytes (nbits w : Nat) : List Byte :=
  let word : BitVec 32 := BitVec.ofNat 32 (w % 2 ^ nbits)
  [word.extractLsb' 24 8, word.extractLsb' 16 8, word.extractLsb' 8 8, word.extractLsb' 0 8]

/-- The instruction the decoder reads from an opcode-table word. -/
def decodeTableWord (nbits w : Nat) : Option Instr :=
  match decode (tableWordBytes nbits w) with
  | .ok i => some i
  | .error _ => none

end Sys2Proof
end

