-- ==== Sys2Proof/Machine/State.lean ====
section
/-! DEFINITION. Everything the spec gives the machine to remember (spec/10_state.md R20 to R38), as
plain data, and its value after reset. -/

namespace Sys2Proof.Machine

/-- The four faults the spec defines; each is a stop latched in `status`, after which the machine can
be stepped again (spec/60_exceptions.md R201 to R206). They are next states, not the model's
`Fault`. -/
inductive FaultReason where
  | registerOutOfRange
  | divisionByZero
  | truncatedInstruction
  | jumpOutOfRange
  deriving DecidableEq, Repr

/-- The outcome of a cycle: `Continue`, or `Stop` with its cause (spec/00_scope.md R11, R200, R201). -/
inductive CycleOutcome where
  | continued
  | halted
  | illegalOpcode
  | programEnd
  | fault (reason : FaultReason)
  deriving DecidableEq, Repr

/-- The states of the FSM, `status.run` (R33, R115). -/
inductive RunState where
  | running
  | stopped
  deriving DecidableEq, Repr

/-- The stop-status latch (R33): the run state, and the outcome of the last cycle, whose 3-bit code is
`CycleOutcome.code`. -/
structure Status where
  run : RunState
  cause : CycleOutcome
  deriving DecidableEq, Repr

/-- The program store `P` (R36): its length `L`, and its bytes as cells in canonical form
(`Memory.wf`). An offset below `L` that no cell lists holds `Memory.unlisted` (log entry 2). -/
structure Memory where
  size : Nat
  cells : List Host.Cell
  deriving DecidableEq, Repr

/-- The state `(x[0..31], pc, rem, eq, status)` with the program `P` (R20 to R36). -/
structure State where
  x : Vector Word 32
  pc : Addr
  rem : Word
  eq : Bool
  status : Status
  program : Memory
  deriving DecidableEq, Repr

/-- Why a step has no next state although the program is given. -/
inductive Fault where
  /-- Raised by `step` in a state whose program is longer than PROG_MAX_LEN, a state no host operation
  leads to: "the assignment is outside the interface and the spec says nothing of what follows"
  (spec/93_implementation_defined.md U7). Safe: the model stops (log entry 3). -/
  | programTooLong
  deriving DecidableEq, Repr

/-- Why an operation is not carried out. -/
inductive Refusal where
  /-- Raised by `exec` for an instruction that has no meaning yet; no arm does now. Safe. -/
  | notModelled (mnemonic : String)
  /-- Raised by `State.assignProgram` for a byte sequence longer than PROG_MAX_LEN, which "the host is
  `refuse`d" (U7, spec/20_memory.md R52). Safe (log entry 3). -/
  | programTooLong
  deriving DecidableEq, Repr

/-- The state after reset: "create a VM with all registers zero, program counter zero, remainder zero,
equal flag false, and an empty program"; the FSM is RUNNING with cause 0 (R38, R240). -/
def State.reset : State where
  x := Vector.replicate 32 0
  pc := 0
  rem := 0
  eq := false
  status := ⟨.running, .continued⟩
  program := ⟨0, []⟩

end Sys2Proof.Machine
end

