-- ==== Sys2Proof/Machine/Ops.lean ====
section
/-! DEFINITION. The named operations over the program store, the registers and the status latch: the
reads of the fetch, the register file's ports, the commit that ends a cycle, and the stops, which this
machine has in place of exceptions. Nothing is saved by a stop and nothing returns from one
(spec/60_exceptions.md R210, R211). -/

namespace Sys2Proof.Machine

/-! ### The program store -/

/-- What an offset below the length holds when no cell lists it. DESIGN CHOICE of representation,
safe: the host assigns every byte of the program (log entry 2). -/
def Memory.unlisted : Byte := 0

/-- The byte the cells give an offset. -/
def Memory.lookup : List Host.Cell → Nat → Byte
  | [], _ => Memory.unlisted
  | (k, b) :: cs, a => if k = a then b else Memory.lookup cs a

/-- `P[a]`, for an offset below `L`; there is no byte at or past the end (R10, R56, R57). -/
def Memory.byte? (m : Memory) (a : Nat) : Option Byte :=
  if a < m.size then some (Memory.lookup m.cells a) else none

/-- The cells rise strictly from the bound `lo`, stay below the length and list no byte equal to
`Memory.unlisted`. -/
def Memory.cellsWf (size : Nat) : Nat → List Host.Cell → Bool
  | _, [] => true
  | lo, (k, b) :: cs =>
    decide (lo ≤ k) && decide (k < size) && decide (b ≠ Memory.unlisted) &&
      Memory.cellsWf size (k + 1) cs

/-- The one canonical form of a program store: equal programs are equal data. -/
def Memory.wf (m : Memory) : Bool := Memory.cellsWf m.size 0 m.cells

/-- The cells after a byte is put at an offset, in canonical form. -/
def Memory.insert (a : Nat) (b : Byte) : List Host.Cell → List Host.Cell
  | [] => if b = Memory.unlisted then [] else [(a, b)]
  | (k, c) :: cs =>
    if a < k then (if b = Memory.unlisted then (k, c) :: cs else (a, b) :: (k, c) :: cs)
    else if a = k then (if b = Memory.unlisted then cs else (a, b) :: cs)
    else (k, c) :: Memory.insert a b cs

/-- Put a byte at an offset below the length. No instruction does this (R50): it builds the programs
the host assigns. -/
def Memory.write (m : Memory) (a : Nat) (b : Byte) : Memory :=
  if a < m.size then { m with cells := Memory.insert a b m.cells } else m

/-- Put bytes at consecutive offsets. -/
def Memory.writeBytes (m : Memory) (a : Nat) : List Byte → Memory
  | [] => m
  | b :: bs => Memory.writeBytes (m.write a b) (a + 1) bs

/-- The program store with at least `n` bytes. -/
def Memory.extendTo (m : Memory) (n : Nat) : Memory := { m with size := max m.size n }

/-- The canonical cells of consecutive bytes from an offset on. -/
def Memory.cellsFrom (a : Nat) : List Byte → List Host.Cell
  | [] => []
  | b :: bs =>
    if b = Memory.unlisted then Memory.cellsFrom (a + 1) bs
    else (a, b) :: Memory.cellsFrom (a + 1) bs

/-- The program store of a byte sequence numbered from offset 0 (R36, R57). -/
def Memory.ofBytes (bs : List Byte) : Memory := ⟨bs.length, Memory.cellsFrom 0 bs⟩

/-- The bytes from an offset on, at most `n`, up to the end of the program. -/
def Memory.bytesFrom (m : Memory) (a : Nat) : Nat → List Byte
  | 0 => []
  | n + 1 =>
    match m.byte? a with
    | none => []
    | some b => b :: m.bytesFrom (a + 1) n

/-! ### The fetch -/

/-- The program is longer than the interface allows (R52). -/
def State.programTooLong (s : State) : Bool := decide (Config.progMaxLen < s.program.size)

/-- The program-end test `pc >= L`, "compared as unsigned integers" (R102). -/
def State.atProgramEnd (s : State) : Bool := decide (s.program.size ≤ s.pc.toNat)

/-- The bytes a cycle may fetch: those at `pc` to `pc + 3` that exist (R70, R83). The decoder takes from
them exactly the ones the instruction uses. -/
def State.fetchBytes (s : State) : List Byte := s.program.bytesFrom s.pc.toNat Config.insnBytes

/-! ### The register file -/

/-- `x[i]`, a read port (R9, R23): every register is an ordinary one (R20). -/
def State.reg (s : State) (r : RegIdx) : Word := s.x.get r

/-- `x[i] <- v`, the write port (R9, R23). -/
def State.setReg (s : State) (r : RegIdx) (v : Word) : State :=
  { s with x := s.x.set r.val v r.isLt }

/-! ### The status latch -/

/-- The code of an outcome, as latched in `status.cause` (R33, R201). -/
def CycleOutcome.code : CycleOutcome → BitVec 3
  | .continued => 0
  | .halted => 1
  | .illegalOpcode => 2
  | .programEnd => 3
  | .fault .registerOutOfRange => 4
  | .fault .divisionByZero => 5
  | .fault .truncatedInstruction => 6
  | .fault .jumpOutOfRange => 7

/-- The bit of `status.run`: 0 RUNNING, 1 STOPPED (R33). -/
def RunState.bit : RunState → BitVec 1
  | .running => 0
  | .stopped => 1

/-- `status.run` after a cycle: "0 when the outcome is `Continue` and 1 otherwise" (R111). -/
def CycleOutcome.runAfter : CycleOutcome → RunState
  | .continued => .running
  | .halted => .stopped
  | .illegalOpcode => .stopped
  | .programEnd => .stopped
  | .fault _ => .stopped

/-- "At the end of every cycle, whatever its outcome", the FSM writes both fields of `status` (R111). -/
def State.endCycle (s : State) (o : CycleOutcome) : State :=
  { s with status := ⟨o.runAfter, o⟩ }

/-! ### Commit and stop -/

/-- The writes an instruction stages: "at most one register write, at most one write of `rem`, at most
one write of `eq`, and the final `npc`" (R110). -/
structure Staged where
  reg : Option (RegIdx × Word) := none
  rem : Option Word := none
  eq : Option Bool := none
  npc : Addr

/-- Commit: "all staged writes and `pc <- npc` take effect together" (R110). -/
def State.commit (s : State) (w : Staged) : State :=
  { s with
    x := match w.reg with
      | some (r, v) => s.x.set r.val v r.isLt
      | none => s.x
    rem := w.rem.getD s.rem
    eq := w.eq.getD s.eq
    pc := w.npc }

/-- The cycle ends with `Continue` after its commit (R105, R110, R111). -/
def State.completes (s : State) (w : Staged) : Host.Outcome State Fault Refusal :=
  .next ((s.commit w).endCycle .continued)

/-- The cycle of HLT or ILLEGAL ends with its stop after the commit `pc <- npc` (R105, R207). -/
def State.stops (s : State) (npc : Addr) (o : CycleOutcome) : Host.Outcome State Fault Refusal :=
  .next ((s.commit { npc := npc }).endCycle o)

/-- Taking a fault, the one operation of all four: the commit is cancelled, only `status` is written,
and `pc` still holds the start of the instruction (R110, R206, R210). -/
def State.takeFault (s : State) (r : FaultReason) : Host.Outcome State Fault Refusal :=
  .next (s.endCycle (.fault r))

/-- `Stop(ProgramEnd)`: "`x`, `pc`, `rem` and `eq` are unchanged" (R102, R207). -/
def State.takeProgramEnd (s : State) : Host.Outcome State Fault Refusal :=
  .next (s.endCycle .programEnd)

/-- The stop of a cycle whose bytes give no instruction (R102, R106, R107, R109). -/
def State.takeReject (s : State) : Reject → Host.Outcome State Fault Refusal
  | .noOpcodeByte => s.takeProgramEnd
  | .truncatedInstruction => s.takeFault .truncatedInstruction
  | .registerOutOfRange => s.takeFault .registerOutOfRange

end Sys2Proof.Machine
end

