-- ==== Sys2Proof/Machine/Operands.lean ====
section
/-! DEFINITION. Operand values: the signed reading of a register, truncation and extension
(spec/00_scope.md R8; spec/40_cycle_and_decoder.md R108; spec/30_encoding.md R77). -/

namespace Sys2Proof.Machine

/-- `sint(v)`, the two's complement reading (R8). -/
def sint (v : Word) : Int := v.toInt

/-- `trunc_32(n)`, the word whose unsigned reading is `n mod 2^32` (R8). -/
def trunc32 (n : Int) : Word := BitVec.ofInt 32 n

/-- `zext_32(imm)`, zeros above the 16 bits (R8, R77). -/
def zext32 (imm : Imm) : Word := imm.setWidth 32

/-- `sint(NextRegValue())`, the value of a source operand when the cycle began (R23, R108). -/
def State.source (s : State) (r : RegIdx) : Int := sint (s.reg r)

end Sys2Proof.Machine
end

