-- ==== Sys2Proof/Machine/Alu.lean ====
section
/-! DEFINITION. The arithmetic half of the `alu`, a pure function of two signed values
(spec/42_arithmetic.md R140, R141, R142). Its comparison half is Machine/Flags.lean. -/

namespace Sys2Proof.Machine

/-- `tdiv(n, d)`, the quotient rounded toward zero: "`sign(n) * sign(d) * floor(|n| / |d|)`" (R141). -/
def tdiv (n d : Int) : Int := n.sign * d.sign * ((n.natAbs / d.natAbs : Nat) : Int)

/-- `trem(n, d)`, the matching remainder: "`n - d * tdiv(n, d)`" (R141). -/
def trem (n d : Int) : Int := n - d * tdiv n d

/-- The arithmetic selectors of the `alu` (R140). -/
inductive ArithOp where
  | add | sub | mul | div
  deriving DecidableEq, Repr

/-- The exact integer of each operation, before it is narrowed (R142 to R146). -/
def ArithOp.exact : ArithOp → Int → Int → Int
  | .add, va, vb => va + vb
  | .sub, va, vb => va - vb
  | .mul, va, vb => va * vb
  | .div, va, vb => tdiv va vb

/-- The output `result`: "the low 32 bits of the exact result" (R142). For DIV it is used only with a
divisor that is not 0. -/
def aluResult (o : ArithOp) (va vb : Int) : Word := trunc32 (o.exact va vb)

/-- The output `remainder`, of DIV (R140, R146). -/
def aluRemainder (va vb : Int) : Word := trunc32 (trem va vb)

/-- The output `div_by_zero`: "DIV with `vb` = 0" (R140). -/
def aluDivByZero (vb : Int) : Bool := decide (vb = 0)

end Sys2Proof.Machine
end

