-- ==== Sys2Proof/Machine/PcUnit.lean ====
section
/-! DEFINITION. The `pc_update_unit`: sequential advance, and jump targets computed over the integers
and checked afterwards (spec/43_jumps.md R160, R161, R162). -/

namespace Sys2Proof.Machine

/-- `SEQ(n)`: the position `n` bytes past the start of the instruction (R160, R162). The sum stays below
2^32 for every instruction that was fetched (R28); DESIGN CHOICE, see log entry 11. -/
def State.seq (s : State) (n : Nat) : Addr := s.pc + BitVec.ofNat 32 n

/-- The position after the operand byte of a jump, `a + 2`, as an exact integer (R160, R164, R165). -/
def State.jumpBase (s : State) : Int := (s.pc.toNat : Int) + 2

/-- The kinds of target: absolute (JMP and a taken JMPE), forward and backward (R160). -/
inductive JumpKind where
  | abs | fwd | back
  deriving DecidableEq, Repr

/-- The exact target: "`v` for JMP and a taken JMPE, `base + v` for JMPF, `base - v` for JMPB" (R161). -/
def JumpKind.target : JumpKind → Int → Int → Int
  | .abs, _, v => v
  | .fwd, base, v => base + v
  | .back, base, v => base - v

/-- "If `0 <= t < 2^32` then `pc <- t`"; otherwise the output `jump_fault` (R160, R161). -/
def checkTarget (t : Int) : Option Addr :=
  if 0 ≤ t ∧ t < (Config.pcLimit : Int) then some (BitVec.ofNat 32 t.toNat) else none

/-- A jump of the given kind by the value of a register: the cycle completes at the target, or faults
with `JumpOutOfRange` and changes nothing (R161). -/
def State.jump (s : State) (k : JumpKind) (v : Int) : Host.Outcome State Fault Refusal :=
  match checkTarget (k.target s.jumpBase v) with
  | some t => s.completes { npc := t }
  | none => s.takeFault .jumpOutOfRange

end Sys2Proof.Machine
end

