-- ==== Sys2Proof/Machine/Arithmetic.lean ====
section
/-! DEFINITION. ADD, SUB, MUL and DIV (spec/42_arithmetic.md). Both sources are read before the
destination is written (spec/10_state.md R23). -/

namespace Sys2Proof.Machine

/-- The cycle ADD, SUB and MUL share: "commit: x[d] <- …; pc <- npc" with no flag (R143, R144, R145). -/
def State.arith (o : ArithOp) (a b d : RegIdx) (s : State) : Host.Outcome State Fault Refusal :=
  s.completes { reg := some (d, aluResult o (s.source a) (s.source b)), npc := s.seq 4 }

/-- "regDest ← regA + regB" (R143). -/
def execAdd (a b d : RegIdx) (s : State) : Host.Outcome State Fault Refusal := s.arith .add a b d

/-- "regDest ← regA − regB" (R144). -/
def execSub (a b d : RegIdx) (s : State) : Host.Outcome State Fault Refusal := s.arith .sub a b d

/-- "regDest ← regA × regB", the low 32 bits (R145). -/
def execMul (a b d : RegIdx) (s : State) : Host.Outcome State Fault Refusal := s.arith .mul a b d

/-- Quotient to the destination and remainder to `rem`, or `Fault(DivisionByZero)` with nothing written
(R146, R203). -/
def execDiv (a b d : RegIdx) (s : State) : Host.Outcome State Fault Refusal :=
  if aluDivByZero (s.source b) then s.takeFault .divisionByZero
  else s.completes
    { reg := some (d, aluResult .div (s.source a) (s.source b)),
      rem := some (aluRemainder (s.source a) (s.source b)), npc := s.seq 4 }

end Sys2Proof.Machine
end

