-- ==== Sys2Proof/Machine/Flags.lean ====
section
/-! DEFINITION. The comparison half of the `alu`, whose one output the `flag_register` holds
(spec/44_compare.md R180; spec/10_state.md R29, R30). -/

namespace Sys2Proof.Machine

/-- The comparison selectors of the `alu` (R140, R180). -/
inductive CmpOp where
  | eq | neq | gt | lt | gte | lte
  deriving DecidableEq, Repr

/-- The output `cmp`, the signed relation of the left and right operand (the table of R180). -/
def aluCmp : CmpOp → Int → Int → Bool
  | .eq, va, vb => decide (va = vb)
  | .neq, va, vb => decide (va ≠ vb)
  | .gt, va, vb => decide (va > vb)
  | .lt, va, vb => decide (va < vb)
  | .gte, va, vb => decide (va ≥ vb)
  | .lte, va, vb => decide (va ≤ vb)

end Sys2Proof.Machine
end

