-- ==== Sys2Proof/Machine/Compare.lean ====
section
/-! DEFINITION. EQ, NEQ, GT, LT, GTE and LTE (spec/44_compare.md). -/

namespace Sys2Proof.Machine

/-- `Compare(rel)`: "commit: eq <- (1 if rel(va, vb) else 0); pc <- npc", the padding byte stepped over
(R187). -/
def State.compare (o : CmpOp) (a b : RegIdx) (s : State) : Host.Outcome State Fault Refusal :=
  s.completes { eq := some (aluCmp o (s.source a) (s.source b)), npc := s.seq 4 }

/-- "`Compare(=)`" (R181). -/
def execEq (a b : RegIdx) (s : State) : Host.Outcome State Fault Refusal := s.compare .eq a b

/-- "`Compare(!=)`": the flag is set when the values differ (R182). -/
def execNeq (a b : RegIdx) (s : State) : Host.Outcome State Fault Refusal := s.compare .neq a b

/-- "`Compare(>)`" (R183). -/
def execGt (a b : RegIdx) (s : State) : Host.Outcome State Fault Refusal := s.compare .gt a b

/-- "`Compare(<)`" (R184). -/
def execLt (a b : RegIdx) (s : State) : Host.Outcome State Fault Refusal := s.compare .lt a b

/-- "`Compare(>=)`" (R185). -/
def execGte (a b : RegIdx) (s : State) : Host.Outcome State Fault Refusal := s.compare .gte a b

/-- "`Compare(<=)`" (R186). -/
def execLte (a b : RegIdx) (s : State) : Host.Outcome State Fault Refusal := s.compare .lte a b

end Sys2Proof.Machine
end

