-- ==== Sys2Proof/Machine/Jumps.lean ====
section
/-! DEFINITION. JMP, JMPF, JMPB and JMPE (spec/43_jumps.md). -/

namespace Sys2Proof.Machine

/-- "pc <- t" with `t` the signed value of the register (R163). -/
def execJmp (r : RegIdx) (s : State) : Host.Outcome State Fault Refusal :=
  s.jump .abs (s.source r)

/-- "t <- npc + v", counted from `a + 2` (R164). -/
def execJmpf (r : RegIdx) (s : State) : Host.Outcome State Fault Refusal :=
  s.jump .fwd (s.source r)

/-- "t <- npc - v", counted from `a + 2` (R165). -/
def execJmpb (r : RegIdx) (s : State) : Host.Outcome State Fault Refusal :=
  s.jump .back (s.source r)

/-- Absolute when the equal flag is set; otherwise the padding is stepped over, and the value of the
register is not range-checked (R166). -/
def execJmpe (r : RegIdx) (s : State) : Host.Outcome State Fault Refusal :=
  if s.eq then s.jump .abs (s.source r) else s.completes { npc := s.seq 4 }

end Sys2Proof.Machine
end

