-- ==== Sys2Proof/Machine/Load.lean ====
section
/-! DEFINITION. LOAD (spec/41_load.md). -/

namespace Sys2Proof.Machine

/-- "commit: x[d] <- zext_32(imm); pc <- npc" (R130). -/
def execLoad (d : RegIdx) (imm : Imm) (s : State) : Host.Outcome State Fault Refusal :=
  s.completes { reg := some (d, zext32 imm), npc := s.seq 4 }

end Sys2Proof.Machine
end

