-- ==== Sys2Proof/Machine/Stop.lean ====
section
/-! DEFINITION. HLT and ILLEGAL (spec/45_stop.md). -/

namespace Sys2Proof.Machine

/-- "commit: pc <- npc; outcome Stop(Halted)", with `npc = a + 1` (R196). -/
def execHlt (s : State) : Host.Outcome State Fault Refusal := s.stops (s.seq 1) .halted

/-- "commit: pc <- npc; outcome Stop(IllegalOpcode)"; all 240 opcode bytes behave alike, and the byte is
recorded nowhere (R74, R197). -/
def execIllegal (_op : Byte) (s : State) : Host.Outcome State Fault Refusal :=
  s.stops (s.seq 1) .illegalOpcode

end Sys2Proof.Machine
end

