-- ==== Sys2Proof/Machine/Dispatch.lean ====
section
/-! DEFINITION. The dispatch: one arm per tag and no default arm (spec/40_cycle_and_decoder.md R104). -/

namespace Sys2Proof.Machine

def exec (i : Instr) (s : State) : Host.Outcome State Fault Refusal :=
  match i with
  | .load reg imm => Sys2Proof.Machine.execLoad reg imm s
  | .add regA regB regDest => Sys2Proof.Machine.execAdd regA regB regDest s
  | .sub regA regB regDest => Sys2Proof.Machine.execSub regA regB regDest s
  | .mul regA regB regDest => Sys2Proof.Machine.execMul regA regB regDest s
  | .div regA regB regDest => Sys2Proof.Machine.execDiv regA regB regDest s
  | .hlt => Sys2Proof.Machine.execHlt s
  | .jmp reg => Sys2Proof.Machine.execJmp reg s
  | .jmpf reg => Sys2Proof.Machine.execJmpf reg s
  | .jmpb reg => Sys2Proof.Machine.execJmpb reg s
  | .jmpe reg => Sys2Proof.Machine.execJmpe reg s
  | .eq regA regB => Sys2Proof.Machine.execEq regA regB s
  | .neq regA regB => Sys2Proof.Machine.execNeq regA regB s
  | .gte regA regB => Sys2Proof.Machine.execGte regA regB s
  | .lte regA regB => Sys2Proof.Machine.execLte regA regB s
  | .gt regA regB => Sys2Proof.Machine.execGt regA regB s
  | .lt regA regB => Sys2Proof.Machine.execLt regA regB s
  | .illegal op => Sys2Proof.Machine.execIllegal op s

end Sys2Proof.Machine
end

