-- ==== Sys2Proof/Machine/Step.lean ====
section
/-! DEFINITION. One step is one cycle, the host's `run_once()` (spec/40_cycle_and_decoder.md R101,
R114; log entry 4); and the placing of one instruction where the next cycle fetches it. -/

namespace Sys2Proof.Machine

/-- `Cycle()` (R101): the program-end test, the fetch and decoding, then the instruction. Every stop is
a next state; the one fault is a state outside the interface (U7). `status` is not read (R112, R115). -/
def step (s : State) : Host.Outcome State Fault Refusal :=
  if s.programTooLong then .fault .programTooLong
  else if s.atProgramEnd then s.takeProgramEnd
  else
    match decode s.fetchBytes with
    | .ok i => exec i s
    | .error r => s.takeReject r

/-- The state with an opcode-table word stored at `pc`, the program extended to hold it. A program comes
to run because the host assigns it (R243); this stands for that assignment (log entries 5 and 6). -/
def State.withFetchWord (s : State) (nbits w : Nat) : State :=
  { s with
    program := (s.program.extendTo (s.pc.toNat + Config.insnBytes)).writeBytes s.pc.toNat
      (tableWordBytes nbits w) }

end Sys2Proof.Machine
end

