-- ==== Sys2Proof/Machine/HostPort.lean ====
section
/-! DEFINITION. What the host can do to the block, between cycles (spec/70_reset_and_hazards.md R242;
spec/40_cycle_and_decoder.md R113, R114). The host reads the state by its fields. -/

namespace Sys2Proof.Machine

/-- "Assigning the program changes `P` and `L` only"; a sequence longer than PROG_MAX_LEN is refused (R52,
R62, R242, U7). -/
def State.assignProgram (s : State) (bs : List Byte) : Host.Outcome State Fault Refusal :=
  if Config.progMaxLen < bs.length then .refused .programTooLong
  else .next { s with program := Memory.ofBytes bs }

/-- Preset of a general register (R25, R242). -/
def State.presetReg (s : State) (r : RegIdx) (v : Word) : State := s.setReg r v

/-- Preset of the program counter: "any value of its width" (R242). -/
def State.presetPc (s : State) (v : Addr) : State := { s with pc := v }

/-- Preset of the remainder register (R30, R242). -/
def State.presetRem (s : State) (v : Word) : State := { s with rem := v }

/-- Preset of the equal flag (R30, R242). -/
def State.presetEq (s : State) (v : Bool) : State := { s with eq := v }

/-- `run()` "sets `status.run <- 0`, `status.cause <- 0` (RUNNING)" before its first cycle (R113). -/
def State.beginRun (s : State) : State := { s with status := ⟨.running, .continued⟩ }

/-- Cycles "one after another until one returns a `Stop` outcome" (R113), at most `fuel` of them: the
state in which the run returns, or none when it has not returned by then (log entry 9). -/
def runCycles : Nat → State → Option State
  | 0, _ => none
  | fuel + 1, s =>
    match step s with
    | .next t =>
      match t.status.run with
      | .running => runCycles fuel t
      | .stopped => some t
    | .fault _ => none
    | .refused _ => none

/-- `run()` (R113), within `fuel` cycles. -/
def State.run (s : State) (fuel : Nat) : Option State := runCycles fuel s.beginRun

/-- The host's operations that change the state (the table of R242). There is none that writes `status`,
and none that acts during a cycle or between the cycles of one `run()`. -/
inductive HostOp where
  | reset
  | assign (bs : List Byte)
  | presetReg (r : RegIdx) (v : Word)
  | presetPc (v : Addr)
  | presetRem (v : Word)
  | presetEq (v : Bool)
  | runOnce
  | run (fuel : Nat)
  deriving DecidableEq, Repr

/-- The next state of an outcome, if it has one. -/
def nextState : Host.Outcome State Fault Refusal → Option State
  | .next t => some t
  | .fault _ => none
  | .refused _ => none

/-- The state after a host operation; none when it is refused, or when a `run()` has not returned. -/
def State.hostStep (s : State) : HostOp → Option State
  | .reset => some State.reset
  | .assign bs => nextState (s.assignProgram bs)
  | .presetReg r v => some (s.presetReg r v)
  | .presetPc v => some (s.presetPc v)
  | .presetRem v => some (s.presetRem v)
  | .presetEq v => some (s.presetEq v)
  | .runOnce => nextState (step s)
  | .run fuel => s.run fuel

/-- The state after host operations done in order, each with a next state. -/
def State.hostSteps (s : State) : List HostOp → Option State
  | [] => some s
  | o :: os =>
    match s.hostStep o with
    | some t => t.hostSteps os
    | none => none

end Sys2Proof.Machine
end

