-- ==== Sys2Proof/Safety.lean ====
section
/-! DEFINITION. What counts as a state of the machine and as a clean ending, in the terms the
statements use. -/

namespace Sys2Proof.Machine

/-- What every state the host can bring about satisfies: the program store is canonical and no longer
than PROG_MAX_LEN (R52), and `status.run` is RUNNING exactly when `status.cause` is Continue (R34). -/
abbrev State.Inv (s : State) : Prop :=
  s.program.wf = true ∧ s.program.size ≤ Config.progMaxLen ∧
  (s.status.run = .running ↔ s.status.cause = .continued)

/-- The outcomes that are no failure: Continue, and the two clean ends Halted and ProgramEnd. R211 asks a
model to treat the first fault or illegal opcode of a run as the end of that run, and to make its
claims about runs that reach a clean end. -/
def CycleOutcome.clean : CycleOutcome → Bool
  | .continued => true
  | .halted => true
  | .programEnd => true
  | .illegalOpcode => false
  | .fault _ => false

/-- The last cycle ended in no failure. -/
def State.Safe (s : State) : Prop := s.status.cause.clean = true

/-- The general register an instruction writes when it completes, if any (the table of R21). -/
def destination : Instr → Option RegIdx
  | .load d _ => some d
  | .add _ _ d => some d
  | .sub _ _ d => some d
  | .mul _ _ d => some d
  | .div _ _ d => some d
  | .hlt => none
  | .jmp _ => none
  | .jmpf _ => none
  | .jmpb _ => none
  | .jmpe _ => none
  | .eq _ _ => none
  | .neq _ _ => none
  | .gte _ _ => none
  | .lte _ _ => none
  | .gt _ _ => none
  | .lt _ _ => none
  | .illegal _ => none

/-- The six instructions that write `eq` (R30). -/
def isComparison : Instr → Bool
  | .load _ _ => false
  | .add _ _ _ => false
  | .sub _ _ _ => false
  | .mul _ _ _ => false
  | .div _ _ _ => false
  | .hlt => false
  | .jmp _ => false
  | .jmpf _ => false
  | .jmpb _ => false
  | .jmpe _ => false
  | .eq _ _ => true
  | .neq _ _ => true
  | .gte _ _ => true
  | .lte _ _ => true
  | .gt _ _ => true
  | .lt _ _ => true
  | .illegal _ => false

/-- The instructions that fall through to `a + 4` when they complete: all but the jumps and the two that
stop (R27, R76). -/
def fallsThrough : Instr → Bool
  | .load _ _ => true
  | .add _ _ _ => true
  | .sub _ _ _ => true
  | .mul _ _ _ => true
  | .div _ _ _ => true
  | .hlt => false
  | .jmp _ => false
  | .jmpf _ => false
  | .jmpb _ => false
  | .jmpe _ => false
  | .eq _ _ => true
  | .neq _ _ => true
  | .gte _ _ => true
  | .lte _ _ => true
  | .gt _ _ => true
  | .lt _ _ => true
  | .illegal _ => false

end Sys2Proof.Machine
end

