-- ==== Sys2Proof/Certificates/Slice0/Obligations.lean ====
section
/-! DEFINITION. The statements for the provers. Each docstring names the rule of spec/ it formalises;
where a rule rests on one of the spec's own decisions D<n> (spec/92_eei_decisions.md), it says so.

The statements about a cycle speak of the bytes of the program at `pc`, `pc + 1`, …, of the fields of the
state before, and of the whole state after; what a record update does not name is unchanged. -/

open Sys2Proof Sys2Proof.Machine

/-! ### The words the statements are written in -/

/-- The byte of the program `k` past `pc`, as a number: `uint(P[a+k])`, if there is one. -/
abbrev Sys2Proof.Machine.State.byteAt (s : State) (k : Nat) : Option Nat :=
  (s.program.byte? (s.pc.toNat + k)).map BitVec.toNat

/-- A cycle from `s` fetches the opcode byte `op`: the program is within its bound (R52) and has that
byte at `pc`. -/
abbrev Sys2Proof.Machine.State.Fetches (s : State) (op : Nat) : Prop :=
  s.program.size ≤ 2 ^ 31 ∧ s.byteAt 0 = some op

/-- `status` after a cycle whose outcome is Continue: RUNNING, cause 0 (R111; the spec's decision D15 for
the latch itself). -/
abbrev Sys2Proof.Machine.Status.ran : Status := ⟨.running, .continued⟩

/-- The state after a fault: only `status` is written (R206). -/
abbrev Sys2Proof.Machine.State.faulted (s : State) (r : FaultReason) : State :=
  { s with status := ⟨.stopped, .fault r⟩ }

/-- The faults of an instruction's `n` register operand bytes, tested in stream order: for k = 1, …, n
in turn, TruncatedInstruction if `a+k >= L`, then RegisterOutOfRange if the byte at `a+k` is 32 or more
(R22, R106, R107, R209; the spec's decisions D4, D12, D14). -/
abbrev Sys2Proof.Machine.OperandFaults (op n : Nat) : Prop :=
  ∀ s : State, s.Fetches op → ∀ k, 1 ≤ k → k ≤ n →
    (∀ j, 1 ≤ j → j < k → ∃ r : RegIdx, s.byteAt j = some r.val) →
    (s.program.size ≤ s.pc.toNat + k → step s = .next (s.faulted .truncatedInstruction)) ∧
    (∀ v, s.byteAt k = some v → 32 ≤ v → step s = .next (s.faulted .registerOutOfRange))

/-- The whole cycle of an instruction of format R3 that cannot fault once its operands are fetched. -/
abbrev Sys2Proof.Machine.ArithCycle (op : Nat) (f : Int → Int → Int) : Prop :=
  OperandFaults op 3 ∧
  ∀ (s : State) (a b d : RegIdx), s.Fetches op →
    s.byteAt 1 = some a.val → s.byteAt 2 = some b.val → s.byteAt 3 = some d.val →
    step s = .next { s with
      x := s.x.set d.val (BitVec.ofInt 32 (f (s.x.get a).toInt (s.x.get b).toInt)) d.isLt
      pc := s.pc + 4
      status := .ran }

/-- The whole cycle of a comparison, format R2P: nothing is asked of the padding byte at `a+3`. -/
abbrev Sys2Proof.Machine.CompareCycle (op : Nat) (rel : Int → Int → Bool) : Prop :=
  OperandFaults op 2 ∧
  ∀ (s : State) (a b : RegIdx), s.Fetches op →
    s.byteAt 1 = some a.val → s.byteAt 2 = some b.val →
    step s = .next { s with
      eq := rel (s.x.get a).toInt (s.x.get b).toInt
      pc := s.pc + 4
      status := .ran }

/-- The whole cycle of a relative jump, format R1, whose exact target is `target a v`. -/
abbrev Sys2Proof.Machine.RelativeJumpCycle (op : Nat) (target : Int → Int → Int) : Prop :=
  OperandFaults op 1 ∧
  ∀ (s : State) (r : RegIdx), s.Fetches op → s.byteAt 1 = some r.val →
    (0 ≤ target s.pc.toNat (s.x.get r).toInt → target s.pc.toNat (s.x.get r).toInt < 2 ^ 32 →
      ∃ p : Addr, (p.toNat : Int) = target s.pc.toNat (s.x.get r).toInt ∧
        step s = .next { s with pc := p, status := .ran }) ∧
    (target s.pc.toNat (s.x.get r).toInt < 0 ∨ 2 ^ 32 ≤ target s.pc.toNat (s.x.get r).toInt →
      step s = .next (s.faulted .jumpOutOfRange))

/-! ### Encoding -/

/-- R72, R100: the decoder is total and answers, for every byte, the tag of the table of R73: an
operation for 0 to 15, ILLEGAL for 16 to 255. The numbers 5 to 14 are the spec's decision D1 (log
entry 1), and the map is one R73 allows. -/
def Obligations.OpcodeDecoderTable : Prop :=
  opcodeMap.Valid ∧
  (decodeOpcode opcodeMap 0 = .op .load ∧ decodeOpcode opcodeMap 1 = .op .add ∧
   decodeOpcode opcodeMap 2 = .op .sub ∧ decodeOpcode opcodeMap 3 = .op .mul ∧
   decodeOpcode opcodeMap 4 = .op .div ∧ decodeOpcode opcodeMap 5 = .op .hlt ∧
   decodeOpcode opcodeMap 6 = .op .jmp ∧ decodeOpcode opcodeMap 7 = .op .jmpf ∧
   decodeOpcode opcodeMap 8 = .op .jmpb ∧ decodeOpcode opcodeMap 9 = .op .jmpe ∧
   decodeOpcode opcodeMap 10 = .op .eq ∧ decodeOpcode opcodeMap 11 = .op .neq ∧
   decodeOpcode opcodeMap 12 = .op .gte ∧ decodeOpcode opcodeMap 13 = .op .lte ∧
   decodeOpcode opcodeMap 14 = .op .gt ∧ decodeOpcode opcodeMap 15 = .op .lt) ∧
  ∀ b : Byte, decodeOpcode opcodeMap b = .illegal ↔ 16 ≤ b.toNat

/-- Words written out from the formats of R71 and the table of R73 decode to the instructions they
stand for, one for each format. -/
def Obligations.WordsDecodeAsWritten : Prop :=
  decode [0, 3, 1, 244] = .ok (.load 3 500) ∧
  decode [1, 0, 1, 2] = .ok (.add 0 1 2) ∧
  decode [4, 31, 30, 29] = .ok (.div 31 30 29) ∧
  decode [7, 9, 200, 201] = .ok (.jmpf 9) ∧
  decode [9, 12] = .ok (.jmpe 12) ∧
  decode [15, 4, 5, 77] = .ok (.lt 4 5) ∧
  decode [5] = .ok .hlt ∧
  decode [200, 1, 2, 3] = .ok (.illegal 200)

/-- R106, R107, R109: the operand-fetch helpers. A missing byte is reported before a bad one, the index is
the whole byte, and the 16-bit immediate is big-endian. -/
def Obligations.OperandFetchHelpers : Prop :=
  nextByte [] = .error .truncatedInstruction ∧
  (∀ (b : Byte) bs, nextByte (b :: bs) = .ok (b, bs)) ∧
  nextRegIndex [] = .error .truncatedInstruction ∧
  (∀ (b : Byte) bs, 32 ≤ b.toNat → nextRegIndex (b :: bs) = .error .registerOutOfRange) ∧
  (∀ (r : RegIdx) (b : Byte) bs, b.toNat = r.val → nextRegIndex (b :: bs) = .ok (r, bs)) ∧
  (∀ bs : List Byte, bs.length < 2 → next16 bs = .error .truncatedInstruction) ∧
  (∀ (hi lo : Byte) bs, ∃ imm : Imm, imm.toNat = hi.toNat * 256 + lo.toNat ∧
    next16 (hi :: lo :: bs) = .ok (imm, bs))

/-- Decoding the encoding of a well-formed instruction gives it back, with every operand at every value,
under every opcode map R73 allows. -/
def Obligations.DecodeOfEncode : Prop :=
  ∀ (m : OpcodeMap) (i : Instr), m.Valid → i.wellFormed = true →
    decodeWith m (encodeWith m i) = .ok i

/-- The other direction: what decodes is well-formed, and its encoding has the bytes that were fetched,
so no two byte sequences that differ in a fetched byte decode alike. -/
def Obligations.EncodeOfDecode : Prop :=
  ∀ (m : OpcodeMap) (bs : List Byte) (i : Instr), m.Valid → decodeWith m bs = .ok i →
    i.wellFormed = true ∧ i.bytesFetched ≤ bs.length ∧
    (encodeWith m i).take i.bytesFetched = bs.take i.bytesFetched

/-- R79: padding has no effect and need not exist. Bytes that agree on those the instruction fetches
decode to the same instruction, whatever follows them, and if nothing follows. -/
def Obligations.PaddingIsIgnored : Prop :=
  ∀ (m : OpcodeMap) (bs cs : List Byte) (i : Instr), m.Valid → decodeWith m bs = .ok i →
    cs.take i.bytesFetched = bs.take i.bytesFetched → decodeWith m cs = .ok i

/-! ### One cycle of each instruction, from the bytes of the program -/

/-- R130, whole: LOAD, opcode byte 0. The value is the zero-extended big-endian immediate (decision D2). -/
def Obligations.LoadCycle : Prop :=
  OperandFaults 0 1 ∧
  (∀ (s : State) (d : RegIdx), s.Fetches 0 → s.byteAt 1 = some d.val →
    s.program.size ≤ s.pc.toNat + 3 → step s = .next (s.faulted .truncatedInstruction)) ∧
  ∀ (s : State) (d : RegIdx) (hi lo : Nat), s.Fetches 0 →
    s.byteAt 1 = some d.val → s.byteAt 2 = some hi → s.byteAt 3 = some lo →
    step s = .next { s with
      x := s.x.set d.val (BitVec.ofNat 32 (hi * 256 + lo)) d.isLt
      pc := s.pc + 4
      status := .ran }

/-- R143, whole: ADD, opcode byte 1, the low 32 bits of the exact sum (R142, decision D8). -/
def Obligations.AddCycle : Prop := ArithCycle 1 fun va vb => va + vb

/-- R144, whole: SUB, opcode byte 2, first operand minus second. -/
def Obligations.SubCycle : Prop := ArithCycle 2 fun va vb => va - vb

/-- R145, whole: MUL, opcode byte 3, the low 32 bits of the exact product. -/
def Obligations.MulCycle : Prop := ArithCycle 3 fun va vb => va * vb

/-- R146, whole: DIV, opcode byte 4. The operand faults come before the zero divisor, which writes
nothing; otherwise quotient and remainder are those of R141 (decisions D5, D6, D7). -/
def Obligations.DivCycle : Prop :=
  OperandFaults 4 3 ∧
  ∀ (s : State) (a b d : RegIdx), s.Fetches 4 →
    s.byteAt 1 = some a.val → s.byteAt 2 = some b.val → s.byteAt 3 = some d.val →
    ((s.x.get b).toInt = 0 → step s = .next (s.faulted .divisionByZero)) ∧
    ((s.x.get b).toInt ≠ 0 → step s = .next { s with
      x := s.x.set d.val (BitVec.ofInt 32 (tdiv (s.x.get a).toInt (s.x.get b).toInt)) d.isLt
      rem := BitVec.ofInt 32 (trem (s.x.get a).toInt (s.x.get b).toInt)
      pc := s.pc + 4
      status := .ran })

/-- R163, whole: JMP, opcode byte 6 (decision D1). The target is the register's signed value, absolute;
a negative one is JumpOutOfRange (decision D11). Nothing is asked of the bytes after the register byte. -/
def Obligations.JmpCycle : Prop :=
  OperandFaults 6 1 ∧
  ∀ (s : State) (r : RegIdx), s.Fetches 6 → s.byteAt 1 = some r.val →
    (0 ≤ (s.x.get r).toInt →
      ∃ p : Addr, (p.toNat : Int) = (s.x.get r).toInt ∧
        step s = .next { s with pc := p, status := .ran }) ∧
    ((s.x.get r).toInt < 0 → step s = .next (s.faulted .jumpOutOfRange))

/-- R164, whole: JMPF, opcode byte 7 (decision D1), counted from `a + 2`; only a target below 0 can be
out of range. -/
def Obligations.JmpfCycle : Prop :=
  RelativeJumpCycle 7 (fun a v => a + 2 + v) ∧
  ∀ (s : State) (r : RegIdx), s.Fetches 7 → s.byteAt 1 = some r.val →
    (s.pc.toNat : Int) + 2 + (s.x.get r).toInt < 2 ^ 32

/-- R165, whole: JMPB, opcode byte 8 (decision D1), counted from `a + 2`; a target of 2^32 or more is
possible only with the register at -2147483648 and `a + 2` = 2^31. -/
def Obligations.JmpbCycle : Prop :=
  RelativeJumpCycle 8 (fun a v => a + 2 - v) ∧
  ∀ (s : State) (r : RegIdx), s.Fetches 8 → s.byteAt 1 = some r.val →
    (2 ^ 32 ≤ (s.pc.toNat : Int) + 2 - (s.x.get r).toInt ↔
      (s.x.get r).toInt = -2147483648 ∧ s.pc.toNat + 2 = 2 ^ 31)

/-- R166, whole: JMPE, opcode byte 9 (decision D1). The register byte is fetched and checked whatever the
flag is; its value is range-checked only when the flag is set (decision D16). Nothing is asked of the
two padding bytes. -/
def Obligations.JmpeCycle : Prop :=
  OperandFaults 9 1 ∧
  ∀ (s : State) (r : RegIdx), s.Fetches 9 → s.byteAt 1 = some r.val →
    (s.eq = false → step s = .next { s with pc := s.pc + 4, status := .ran }) ∧
    (s.eq = true → 0 ≤ (s.x.get r).toInt →
      ∃ p : Addr, (p.toNat : Int) = (s.x.get r).toInt ∧
        step s = .next { s with pc := p, status := .ran }) ∧
    (s.eq = true → (s.x.get r).toInt < 0 → step s = .next (s.faulted .jumpOutOfRange))

/-- R181 to R187 with the relations of R180: the six comparisons, opcode bytes 10 to 15 (decision D1 but
for 15); all six end at `a + 4` (decision D3). -/
def Obligations.ComparisonCycles : Prop :=
  CompareCycle 10 (fun va vb => decide (va = vb)) ∧
  CompareCycle 11 (fun va vb => decide (va ≠ vb)) ∧
  CompareCycle 12 (fun va vb => decide (va ≥ vb)) ∧
  CompareCycle 13 (fun va vb => decide (va ≤ vb)) ∧
  CompareCycle 14 (fun va vb => decide (va > vb)) ∧
  CompareCycle 15 (fun va vb => decide (va < vb))

/-- R196, whole: HLT, opcode byte 5 (decision D1), ends with Stop(Halted) at `a + 1`; no byte after the
opcode is asked for, and it cannot fault. A further cycle is the ordinary cycle from `a + 1`. -/
def Obligations.HltCycle : Prop :=
  ∀ s : State, s.Fetches 5 → ∃ t, step s = .next t ∧
    t = { s with pc := s.pc + 1, status := ⟨.stopped, .halted⟩ } ∧
    step t = step { s with pc := s.pc + 1 }

/-- R74, R197: each of the 240 opcode bytes 16 to 255 decodes to ILLEGAL, and a cycle that fetches one
ends with Stop(IllegalOpcode) at `a + 1` and changes nothing else; the offending byte is `P[pc - 1]`
after the stop, and a further cycle is the ordinary cycle from `a + 1`. -/
def Obligations.IllegalCycle : Prop :=
  (∀ b : Byte, 16 ≤ b.toNat → decodeOpcode opcodeMap b = .illegal) ∧
  ∀ (s : State) (op : Nat), s.Fetches op → 16 ≤ op → ∃ t, step s = .next t ∧
    t = { s with pc := s.pc + 1, status := ⟨.stopped, .illegalOpcode⟩ } ∧
    (t.program.byte? (t.pc.toNat - 1)).map BitVec.toNat = some op ∧
    step t = step { s with pc := s.pc + 1 }

/-! ### Where each instruction completes, and with what

These speak of `exec` in every state. The sequential advance in them, `pc + 4` or `pc + 1`, is a 32-bit sum:
in the states whose `pc` is within four of 2^32, where no cycle runs an instruction, that it wraps is the
model's DESIGN CHOICE of log entry 11 and no rule of the spec (R160 has "no adder that wraps"). -/

/-- LOAD completes in every state and with every operand: the immediate, zero-extended, into the
destination (R77, R130). The advance `pc + 4` is
log entry 11's 32-bit sum (DESIGN CHOICE) where `pc` is within four of 2^32. -/
def Obligations.LoadResult : Prop :=
  ∀ (s : State) (d : RegIdx) (imm : Imm), exec (.load d imm) s = .next { s with
    x := s.x.set d.val (BitVec.ofNat 32 imm.toNat) d.isLt, pc := s.pc + 4, status := .ran }

/-- ADD, SUB and MUL complete in every state and with every operand, a destination that is also a source
included: the values are those the registers held when the cycle began (R23, R143 to R145).
The advance `pc + 4` is log entry 11's 32-bit sum
(DESIGN CHOICE) where `pc` is within four of 2^32. -/
def Obligations.ArithmeticResults : Prop :=
  ∀ (s : State) (a b d : RegIdx),
    exec (.add a b d) s = .next { s with
      x := s.x.set d.val (s.x.get a + s.x.get b) d.isLt, pc := s.pc + 4, status := .ran } ∧
    exec (.sub a b d) s = .next { s with
      x := s.x.set d.val (s.x.get a - s.x.get b) d.isLt, pc := s.pc + 4, status := .ran } ∧
    exec (.mul a b d) s = .next { s with
      x := s.x.set d.val (s.x.get a * s.x.get b) d.isLt, pc := s.pc + 4, status := .ran }

/-- DIV completes whenever the divisor is not 0, -2147483648 ÷ -1 included: the quotient is the signed
machine division toward zero, the remainder the matching one (R141, R142, R146); with the divisor 0 it
takes the fault (R203). The advance `pc + 4` is
log entry 11's 32-bit sum (DESIGN CHOICE) where `pc` is within four of 2^32. -/
def Obligations.DivResult : Prop :=
  ∀ (s : State) (a b d : RegIdx),
    (s.x.get b ≠ 0 → exec (.div a b d) s = .next { s with
      x := s.x.set d.val ((s.x.get a).sdiv (s.x.get b)) d.isLt
      rem := (s.x.get a).srem (s.x.get b), pc := s.pc + 4, status := .ran }) ∧
    (s.x.get b = 0 → exec (.div a b d) s = .next (s.faulted .divisionByZero))

/-- The jumps complete wherever their exact target is a value the program counter can hold, and change
only `pc` and `status` (where they fault is JumpOutOfRangeExactly); a JMPE whose flag is clear completes
at `pc + 4` whatever its register holds (R163 to R166). That advance is log entry 11's 32-bit sum (DESIGN
CHOICE) where `pc` is within four of 2^32; the targets of the taken jumps are exact in every state. -/
def Obligations.JumpResults : Prop :=
  ∀ (s : State) (r : RegIdx) (p : Addr),
    ((p.toNat : Int) = (s.x.get r).toInt →
      exec (.jmp r) s = .next { s with pc := p, status := .ran }) ∧
    ((p.toNat : Int) = (s.pc.toNat : Int) + 2 + (s.x.get r).toInt →
      exec (.jmpf r) s = .next { s with pc := p, status := .ran }) ∧
    ((p.toNat : Int) = (s.pc.toNat : Int) + 2 - (s.x.get r).toInt →
      exec (.jmpb r) s = .next { s with pc := p, status := .ran }) ∧
    (s.eq = true → (p.toNat : Int) = (s.x.get r).toInt →
      exec (.jmpe r) s = .next { s with pc := p, status := .ran }) ∧
    (s.eq = false → exec (.jmpe r) s = .next { s with pc := s.pc + 4, status := .ran })

/-- The six comparisons complete in every state and with every operand, and write the truth of their own
signed relation, which is the machine's signed order on words (R180 to R187).
The advance `pc + 4` is log entry 11's 32-bit sum
(DESIGN CHOICE) where `pc` is within four of 2^32. -/
def Obligations.ComparisonResults : Prop :=
  ∀ (s : State) (a b : RegIdx),
    exec (.eq a b) s = .next { s with
      eq := s.x.get a == s.x.get b, pc := s.pc + 4, status := .ran } ∧
    exec (.neq a b) s = .next { s with
      eq := s.x.get a != s.x.get b, pc := s.pc + 4, status := .ran } ∧
    exec (.gt a b) s = .next { s with
      eq := (s.x.get b).slt (s.x.get a), pc := s.pc + 4, status := .ran } ∧
    exec (.lt a b) s = .next { s with
      eq := (s.x.get a).slt (s.x.get b), pc := s.pc + 4, status := .ran } ∧
    exec (.gte a b) s = .next { s with
      eq := (s.x.get b).sle (s.x.get a), pc := s.pc + 4, status := .ran } ∧
    exec (.lte a b) s = .next { s with
      eq := (s.x.get a).sle (s.x.get b), pc := s.pc + 4, status := .ran }

/-- HLT and ILLEGAL complete in every state: their whole effect is `pc <- a+1` and their stop (R196,
R197, R210). The advance `pc + 1` is log entry 11's 32-bit sum (DESIGN CHOICE) at `pc` = 2^32 - 1. -/
def Obligations.StopResults : Prop :=
  ∀ s : State,
    exec .hlt s = .next { s with pc := s.pc + 1, status := ⟨.stopped, .halted⟩ } ∧
    ∀ op, exec (.illegal op) s =
      .next { s with pc := s.pc + 1, status := ⟨.stopped, .illegalOpcode⟩ }

/-! ### Frames -/

/-- The frame of every instruction, whatever its outcome: every register but the destination is
unchanged (R21), `rem` is unchanged unless it is a DIV (R32), `eq` is unchanged unless it is a
comparison (R30), and the program reads at every offset as before and is as long as before (R50). -/
def Obligations.InstructionFrame : Prop :=
  ∀ (i : Instr) (s t : State), exec i s = .next t →
    (∀ r, destination i ≠ some r → t.x.get r = s.x.get r) ∧
    ((∀ a b d, i ≠ .div a b d) → t.rem = s.rem) ∧
    (isComparison i = false → t.eq = s.eq) ∧
    t.program.size = s.program.size ∧ ∀ a, t.program.byte? a = s.program.byte? a

/-- R50: "The block performs no write to any memory, ever": after any cycle the program is the same, at
every offset and in its length. -/
def Obligations.ProgramIsNeverWritten : Prop :=
  ∀ s t : State, step s = .next t →
    t.program.size = s.program.size ∧ ∀ a, t.program.byte? a = s.program.byte? a

/-- R110, R23: a cycle changes at most one general register. -/
def Obligations.CycleWritesOneRegister : Prop :=
  ∀ s t : State, step s = .next t → ∃ d : RegIdx, ∀ r, r ≠ d → t.x.get r = s.x.get r

/-- R32, whole: `rem` is written only by a cycle that fetches the byte of DIV and completes; and no
instruction reads it: presetting it changes no register, flag, `pc`, `status` or program byte of the
state after a cycle. -/
def Obligations.RemIsWrittenByDivAndNeverRead : Prop :=
  ∀ (s t : State) (v : Word), step s = .next t →
    (s.byteAt 0 ≠ some 4 ∨ t.status.cause ≠ .continued → t.rem = s.rem) ∧
    ∃ u, step { s with rem := v } = .next u ∧ u.x = t.x ∧ u.pc = t.pc ∧ u.eq = t.eq ∧
      u.status = t.status ∧ u.program = t.program

/-- R30, R29: `eq` is written only by a cycle that fetches the byte of a comparison and completes, and
read by JMPE alone: a cycle that does not fetch the byte of JMPE does the same to everything else
whatever `eq` was. -/
def Obligations.EqIsWrittenByComparisonsAndReadByJmpe : Prop :=
  ∀ (s t : State) (v : Bool), step s = .next t →
    ((∀ op, s.byteAt 0 = some op → op < 10 ∨ 15 < op) ∨ t.status.cause ≠ .continued →
      t.eq = s.eq) ∧
    (s.byteAt 0 ≠ some 9 → ∃ u, step { s with eq := v } = .next u ∧ u.x = t.x ∧ u.pc = t.pc ∧ u.rem = t.rem ∧
      u.status = t.status ∧ u.program = t.program)

/-! ### The cycle -/

/-- A step runs the decoded instruction: when the bytes at `pc` decode to an instruction, the step is its
`exec`, and nothing is added around it (R101, R103, R104). -/
def Obligations.StepRunsTheDecodedInstruction : Prop :=
  ∀ (s : State) (i : Instr), s.program.size ≤ 2 ^ 31 → s.pc.toNat < s.program.size →
    decode s.fetchBytes = .ok i → step s = exec i s

/-- The bytes a cycle decodes are those of the program from `pc` on, as many of the four as exist (R70,
R83): there is no other source of them. -/
def Obligations.FetchReadsTheProgram : Prop :=
  ∀ s : State, s.fetchBytes.length = min 4 (s.program.size - s.pc.toNat) ∧
    ∀ k, k < 4 → s.fetchBytes[k]? = s.program.byte? (s.pc.toNat + k)

/-- R102, whole: at or past the end of the program, the empty program included, the cycle ends with
Stop(ProgramEnd) and changes nothing but `status`; "This is the only place the end of the program is
tested as a stop condition", so no other cycle ends so. -/
def Obligations.ProgramEndStopsCleanly : Prop :=
  (∀ s : State, s.program.size ≤ 2 ^ 31 → s.program.size ≤ s.pc.toNat →
    step s = .next { s with status := ⟨.stopped, .programEnd⟩ }) ∧
  ∀ s t : State, step s = .next t → t.status.cause = .programEnd → s.program.size ≤ s.pc.toNat

/-- Every cycle of a program within its bound has a next state: no instruction, byte or register value
ends the model (R112, R200). Past the bound there is none: the model's choice (U7, log entry 3). -/
def Obligations.EveryCycleHasANextState : Prop :=
  ∀ s : State,
    (s.program.size ≤ 2 ^ 31 → ∃ t, step s = .next t) ∧
    (2 ^ 31 < s.program.size → step s = .fault .programTooLong)

/-- R111, R34: after any cycle, whatever its outcome, `status.run` is RUNNING exactly when the outcome is
Continue. -/
def Obligations.StatusAfterACycle : Prop :=
  ∀ s t : State, step s = .next t → (t.status.run = .running ↔ t.status.cause = .continued)

/-- R206 (decision D13): "A cycle that ends with any of the four faults writes none of `x`, `pc`, `rem`, `eq`". -/
def Obligations.FaultsArePrecise : Prop :=
  ∀ (s t : State) (r : FaultReason), step s = .next t → t.status.cause = .fault r →
    t = { s with status := ⟨.stopped, .fault r⟩ }

/-- R207: Halted and IllegalOpcode advance `pc` by one and change nothing else; ProgramEnd changes nothing
at all but `status`. -/
def Obligations.DocumentStopsChangeOnlyPc : Prop :=
  ∀ s t : State, step s = .next t →
    (t.status.cause = .halted → t = { s with pc := s.pc + 1, status := ⟨.stopped, .halted⟩ }) ∧
    (t.status.cause = .illegalOpcode →
      t = { s with pc := s.pc + 1, status := ⟨.stopped, .illegalOpcode⟩ }) ∧
    (t.status.cause = .programEnd → t = { s with status := ⟨.stopped, .programEnd⟩ })

/-- R200, R201: which cycles can end with which stop. Halted comes from the byte of HLT, IllegalOpcode
from a byte of 16 or more, ProgramEnd from `pc >= L`, DivisionByZero from the byte of DIV, JumpOutOfRange
from the byte of a jump, and the operand faults from any other byte. -/
def Obligations.StopsHaveTheirCauses : Prop :=
  ∀ s t : State, step s = .next t →
    (t.status.cause = .programEnd ↔ s.program.size ≤ s.pc.toNat) ∧
    (t.status.cause = .halted ↔ s.byteAt 0 = some 5) ∧
    (t.status.cause = .illegalOpcode ↔ ∃ op, s.byteAt 0 = some op ∧ 16 ≤ op) ∧
    (t.status.cause = .fault .divisionByZero → s.byteAt 0 = some 4) ∧
    (t.status.cause = .fault .jumpOutOfRange → ∃ op, s.byteAt 0 = some op ∧ 6 ≤ op ∧ op ≤ 9) ∧
    (t.status.cause = .fault .registerOutOfRange ∨ t.status.cause = .fault .truncatedInstruction →
      ∃ op, s.byteAt 0 = some op ∧ op < 16 ∧ op ≠ 5)

/-- A cycle that ends in failure, by a fault or an illegal opcode, leaves every register, `rem` and `eq`
as they were (R201, the column "Other state after"). -/
def Obligations.FailureLeavesTheRegisters : Prop :=
  ∀ s t : State, step s = .next t → ¬ t.Safe → t.x = s.x ∧ t.rem = s.rem ∧ t.eq = s.eq

/-- R112: "A cycle does not read `status`, has no other input and draws nothing at random": it is a
function of `(x, pc, rem, eq)` and `P`, and from STOPPED, with any cause, it is the cycle it would be
from RUNNING (decision D24). -/
def Obligations.StatusIsNotRead : Prop :=
  ∀ (s : State) (st : Status), step { s with status := st } = step s

/-- R211, R114: after ProgramEnd or a fault the next cycle reports the same stop and changes nothing, every
time. -/
def Obligations.UnmovedStopsRepeat : Prop :=
  ∀ s t : State, step s = .next t →
    (t.status.cause = .programEnd ∨ ∃ r, t.status.cause = .fault r) → step t = .next t

/-- R249, which the spec derives: stepping on after HLT or ILLEGAL decodes the byte at `a + 1`. With zero
padding that is a LOAD of the byte at `a + 4` into register 0, TruncatedInstruction when there is no
such byte, or ProgramEnd when there is no byte at `a + 1`. -/
def Obligations.SteppingOnExecutesPadding : Prop :=
  ∀ (s : State) (op : Nat), s.Fetches op → (op = 5 ∨ 16 ≤ op) →
    ∃ h, step s = .next h ∧ h.pc = s.pc + 1 ∧
      (s.program.size ≤ s.pc.toNat + 1 →
        step h = .next { h with status := ⟨.stopped, .programEnd⟩ }) ∧
      (s.byteAt 1 = some 0 → (∀ v, s.byteAt 2 = some v → v = 0) →
        s.program.size ≤ s.pc.toNat + 4 → step h = .next (h.faulted .truncatedInstruction)) ∧
      (∀ n, s.byteAt 1 = some 0 → s.byteAt 2 = some 0 → s.byteAt 3 = some 0 → s.byteAt 4 = some n →
        step h = .next { h with
          x := s.x.set 0 (BitVec.ofNat 32 n), pc := s.pc + 5, status := .ran })

/-- R28, R162, R76: the sequential advance is exact, for "every instruction that is not a taken jump". A
cycle that continues from an instruction that falls through, and one that runs a JMPE with the flag
clear, leaves `pc` at `a + 4` as a number, and HLT and ILLEGAL leave it at `a + 1`: it never wraps. -/
def Obligations.SequentialAdvanceNeverWraps : Prop :=
  ∀ (s t : State) (i : Instr), step s = .next t → decode s.fetchBytes = .ok i →
    (fallsThrough i = true → t.status.cause = .continued → t.pc.toNat = s.pc.toNat + 4) ∧
    (∀ r, i = .jmpe r → s.eq = false → t.pc.toNat = s.pc.toNat + 4) ∧
    (t.status.cause = .halted ∨ t.status.cause = .illegalOpcode → t.pc.toNat = s.pc.toNat + 1)

/-- R161, the sentence on the fault (the completions are JumpResults): the fault JumpOutOfRange "arises in exactly four ways", and a target at or past the end of the
program is not one of them. -/
def Obligations.JumpOutOfRangeExactly : Prop :=
  ∀ (s : State) (r : RegIdx), s.program.size ≤ 2 ^ 31 → s.pc.toNat + 2 ≤ s.program.size →
    (exec (.jmp r) s = .next (s.faulted .jumpOutOfRange) ↔ (s.x.get r).toInt < 0) ∧
    (exec (.jmpe r) s = .next (s.faulted .jumpOutOfRange) ↔
      s.eq = true ∧ (s.x.get r).toInt < 0) ∧
    (exec (.jmpf r) s = .next (s.faulted .jumpOutOfRange) ↔
      (s.x.get r).toInt < -((s.pc.toNat : Int) + 2)) ∧
    (exec (.jmpb r) s = .next (s.faulted .jumpOutOfRange) ↔
      (s.pc.toNat : Int) + 2 < (s.x.get r).toInt ∨
      2 ^ 32 ≤ (s.pc.toNat : Int) + 2 - (s.x.get r).toInt)

/-! ### The alu -/

/-- R141, whole: the division functions, their defining equation and its consequences (the rounding is the
spec's decision D6). -/
def Obligations.DivisionTowardZero : Prop :=
  ∀ n d : Int, d ≠ 0 →
    tdiv n d = n.sign * d.sign * (|n| / |d|) ∧ trem n d = n - d * tdiv n d ∧
    n = d * tdiv n d + trem n d ∧ |trem n d| < |d| ∧
    (trem n d = 0 ∨ (trem n d).sign = n.sign) ∧
    tdiv (-n) d = -tdiv n d ∧ tdiv n (-d) = -tdiv n d

/-- R142: the overflow law. The result is the low 32 bits of the exact result, so the same bits for the
signed and the unsigned reading of sum, difference and product; the one overflowing division wraps
(decisions D7, D8). -/
def Obligations.OverflowWraps : Prop :=
  (∀ (o : ArithOp) (a b : Word),
    ((aluResult o a.toInt b.toInt).toNat : Int) = o.exact a.toInt b.toInt % 2 ^ 32) ∧
  (∀ a b : Word,
    aluResult .add a.toInt b.toInt = BitVec.ofNat 32 (a.toNat + b.toNat) ∧
    aluResult .sub a.toInt b.toInt = BitVec.ofInt 32 ((a.toNat : Int) - b.toNat) ∧
    aluResult .mul a.toInt b.toInt = BitVec.ofNat 32 (a.toNat * b.toNat)) ∧
  (aluResult .div (-2147483648) (-1)).toInt = -2147483648 ∧
  (aluRemainder (-2147483648) (-1)).toInt = 0

/-- R147, which the spec derives from R141 and R142: quotient and remainder at every sign combination. -/
def Obligations.DivisionSignTable : Prop :=
  ∀ row ∈ ([(7, 2, 3, 1), (-7, 2, -3, -1), (7, -2, -3, 1), (-7, -2, 3, -1), (6, 3, 2, 0), (-6, 3, -2, 0),
      (1, 2, 0, 1), (-1, 2, 0, -1), (0, 5, 0, 0), (0, -5, 0, 0), (2147483647, -1, -2147483647, 0),
      (-2147483648, 1, -2147483648, 0), (-2147483648, -1, -2147483648, 0),
      (-2147483648, 2147483647, -1, -1), (2147483647, -2147483648, 0, 2147483647)] :
      List (Int × Int × Int × Int)),
    (aluResult .div row.1 row.2.1).toInt = row.2.2.1 ∧
    (aluRemainder row.1 row.2.1).toInt = row.2.2.2

/-- After a DIV that does not fault, quotient times divisor plus remainder is the dividend, modulo 2^32;
the remainder is smaller than the divisor and is 0 or has the sign of the dividend (R141, R142, R146). -/
def Obligations.DivisionIdentity : Prop :=
  ∀ (s t : State) (a b d : RegIdx), exec (.div a b d) s = .next t → t.status.cause = .continued →
    t.x.get d * s.x.get b + t.rem = s.x.get a ∧
    |t.rem.toInt| < |(s.x.get b).toInt| ∧
    (t.rem.toInt = 0 ∨ t.rem.toInt.sign = (s.x.get a).toInt.sign)

/-! ### Status codes, reset and the host -/

/-- The codes of R201, as latched in `status.cause`, and the bit of `status.run` (R33, decision D15): every
3-bit value is the code of exactly one outcome. -/
def Obligations.OutcomeCodes : Prop :=
  CycleOutcome.continued.code = 0 ∧ CycleOutcome.halted.code = 1 ∧
  CycleOutcome.illegalOpcode.code = 2 ∧ CycleOutcome.programEnd.code = 3 ∧
  (CycleOutcome.fault .registerOutOfRange).code = 4 ∧
  (CycleOutcome.fault .divisionByZero).code = 5 ∧
  (CycleOutcome.fault .truncatedInstruction).code = 6 ∧
  (CycleOutcome.fault .jumpOutOfRange).code = 7 ∧
  RunState.running.bit = 0 ∧ RunState.stopped.bit = 1 ∧
  ∀ c : BitVec 3, ∃ o : CycleOutcome, o.code = c ∧ ∀ o' : CycleOutcome, o'.code = c → o' = o

/-- R38, whole: the state after reset (`status` by decision D15). -/
def Obligations.ResetState : Prop :=
  (∀ r : RegIdx, State.reset.x.get r = 0) ∧ State.reset.pc = 0 ∧ State.reset.rem = 0 ∧
  State.reset.eq = false ∧ State.reset.program.size = 0 ∧
  (∀ a, State.reset.program.byte? a = none) ∧
  State.reset.status.run = .running ∧ State.reset.status.cause.code = 0

/-- The state after reset satisfies the invariant. -/
def Obligations.ResetSatisfiesInv : Prop := State.reset.Inv

/-- Every step keeps the invariant: the program store stays canonical and within its bound, and
`status.run` stays RUNNING exactly with cause Continue (R34, R36, R52). -/
def Obligations.StepKeepsInv : Prop :=
  ∀ s t : State, s.Inv → step s = .next t → t.Inv

/-- Every host operation keeps the invariant: from every state that satisfies it, whatever the host does,
`run()` included, the state it brings about satisfies it (R34, R52, R242). -/
def Obligations.HostKeepsInv : Prop :=
  ∀ (s : State) (o : HostOp) (t : State), s.Inv → s.hostStep o = some t → t.Inv

/-- Host operations done one after another, in any order and number, keep the invariant; from reset this
is every state the host can bring about (R242, R243). -/
def Obligations.HostSequencesKeepInv : Prop :=
  ∀ (s : State) (ops : List HostOp) (t : State), s.Inv → s.hostSteps ops = some t → t.Inv

/-- R62, R242: assigning a program replaces `P` and `L` by the byte sequence, at once and whole, and changes
nothing else; a sequence longer than 2^31 is refused (U7, log entry 3). -/
def Obligations.AssignReplacesTheProgram : Prop :=
  ∀ (s : State) (bs : List Byte),
    (bs.length ≤ 2 ^ 31 → ∃ m : Memory, s.assignProgram bs = .next { s with program := m } ∧
      m.size = bs.length ∧ ∀ a, m.byte? a = bs[a]?) ∧
    (2 ^ 31 < bs.length → s.assignProgram bs = .refused .programTooLong)

/-- R242: a preset gives the named element the value and touches nothing else. -/
def Obligations.PresetsTouchOneElement : Prop :=
  ∀ (s : State) (r : RegIdx) (v : Word) (a : Addr) (b : Bool),
    ((s.presetReg r v).x.get r = v ∧ (∀ q, q ≠ r → (s.presetReg r v).x.get q = s.x.get q) ∧
      { s.presetReg r v with x := s.x } = s) ∧
    s.presetPc a = { s with pc := a } ∧ s.presetRem v = { s with rem := v } ∧
    s.presetEq b = { s with eq := b }

/-- R113, R241, R244: `run()` clears only `status`, then performs cycles "one after another until one
returns a `Stop` outcome, and returns". It returns `t` within its fuel exactly when there is a path of at
most that many cycles, from the state with `status` RUNNING and cause 0, that continues at each cycle
but the last, whose outcome `t` is a stop (fuel: log entry 9). -/
def Obligations.RunEndsAtTheFirstStop : Prop :=
  ∀ (s t : State) (fuel : Nat), s.run fuel = some t ↔
    ∃ path : List State, path.length ≤ fuel ∧ path.head? = some { s with status := .ran } ∧
      (∀ k u v, path[k]? = some u → path[k + 1]? = some v →
        step u = .next v ∧ v.status.cause = .continued) ∧
      (∃ u, path.getLast? = some u ∧ step u = .next t) ∧
      t.status.run = .stopped ∧ t.status.cause ≠ .continued

/-- R112, R113: how much fuel a run is given decides only whether it is seen to return, not where: more
fuel gives the same state. -/
def Obligations.RunDoesNotDependOnFuel : Prop :=
  ∀ (s t : State) (n m : Nat), s.run n = some t → n ≤ m → s.run m = some t
end

