-- ==== Sys2Proof/Laws/Decode.lean ====
section
/-! SUPPORT. The laws of the operand fetch, of the opcode map and of the encoder's bytes, one per
function. -/

namespace Sys2Proof

/-! ### The operand fetch -/

@[simp] theorem nextByte_nil : nextByte [] = .error .truncatedInstruction := rfl
@[simp] theorem nextByte_cons (b : Byte) (bs : List Byte) : nextByte (b :: bs) = .ok (b, bs) := rfl

@[simp] theorem nextRegIndex_nil : nextRegIndex [] = .error .truncatedInstruction := rfl

theorem nextRegIndex_legal {b : Byte} (h : b.toNat < 32) (bs : List Byte) :
    nextRegIndex (b :: bs) = .ok (⟨b.toNat, h⟩, bs) := by
  simp [nextRegIndex, h]

theorem nextRegIndex_illegal {b : Byte} (h : 32 ≤ b.toNat) (bs : List Byte) :
    nextRegIndex (b :: bs) = .error .registerOutOfRange := by
  simp [nextRegIndex, Nat.not_lt.2 h]

/-- What a completed register fetch says of the bytes. -/
theorem nextRegIndex_ok {bs rest : List Byte} {r : RegIdx} (h : nextRegIndex bs = .ok (r, rest)) :
    ∃ b, bs = b :: rest ∧ b.toNat = r.val := by
  cases bs with
  | nil => simp at h
  | cons b bs =>
    by_cases hb : b.toNat < 32
    · rw [nextRegIndex_legal hb] at h
      simp only [Except.ok.injEq, Prod.mk.injEq] at h
      obtain ⟨rfl, rfl⟩ := h
      exact ⟨b, rfl, rfl⟩
    · rw [nextRegIndex_illegal (by omega)] at h
      simp at h

@[simp] theorem next16_cons (hi lo : Byte) (bs : List Byte) :
    next16 (hi :: lo :: bs) = .ok (hi ++ lo, bs) := rfl

/-- "with `b1` the byte at the lower offset and `b2` the next, the value is `uint(b1) * 256 + uint(b2)`"
(R53). -/
theorem toNat_imm (hi lo : Byte) : (hi ++ lo).toNat = hi.toNat * 256 + lo.toNat := by
  rw [BitVec.toNat_append, ← Nat.shiftLeft_add_eq_or_of_lt lo.isLt, Nat.shiftLeft_eq]

/-! ### Encoded operands -/

@[simp] theorem toNat_regByte (r : RegIdx) : (regByte r).toNat = r.val := by
  simp only [regByte, BitVec.toNat_ofNat]
  omega

/-- A register byte is read back as its register. -/
@[simp] theorem nextRegIndex_regByte (r : RegIdx) (bs : List Byte) :
    nextRegIndex (regByte r :: bs) = .ok (r, bs) := by
  have h : (regByte r).toNat < 32 := by simp
  rw [nextRegIndex_legal h]
  simp

/-- A byte that spells a register number is that register's byte. -/
theorem eq_regByte {b : Byte} {r : RegIdx} (h : b.toNat = r.val) : b = regByte r :=
  BitVec.eq_of_toNat_eq (by simp [h])

/-- The two bytes of an immediate spell it. -/
@[simp] theorem immHi_append_immLo (imm : Imm) : immHi imm ++ immLo imm = imm := by
  apply BitVec.eq_of_toNat_eq
  rw [toNat_imm]
  simp only [immHi, immLo, BitVec.extractLsb'_toNat, Nat.shiftRight_zero]
  rw [Nat.shiftRight_eq_div_pow]
  omega

@[simp] theorem immHi_append (hi lo : Byte) : immHi (hi ++ lo) = hi := by
  apply BitVec.eq_of_toNat_eq
  simp only [immHi, BitVec.extractLsb'_toNat, toNat_imm]
  rw [Nat.shiftRight_eq_div_pow]
  omega

@[simp] theorem immLo_append (hi lo : Byte) : immLo (hi ++ lo) = lo := by
  apply BitVec.eq_of_toNat_eq
  simp only [immLo, BitVec.extractLsb'_toNat, toNat_imm, Nat.shiftRight_zero]
  omega

/-! ### The opcode map -/

theorem mem_all (o : Operation) : o ∈ Operation.all := by cases o <;> decide

theorem opcodeMap_valid : opcodeMap.Valid := by decide

/-- The code of an operation is below 16. -/
theorem toNat_code {m : OpcodeMap} (h : m.Valid) (o : Operation) :
    (m.code o).toNat = m.ops.idxOf o ∧ m.ops.idxOf o < 16 := by
  have hlt : m.ops.idxOf o < 16 := by
    have := List.idxOf_lt_length_of_mem (h.2.2.1 o (mem_all o))
    have hl := h.1
    omega
  refine ⟨?_, hlt⟩
  simp only [OpcodeMap.code, BitVec.toNat_ofNat]
  omega

/-- Decoding the code of an operation gives it back (R72). -/
theorem decodeOpcode_code {m : OpcodeMap} (h : m.Valid) (o : Operation) :
    decodeOpcode m (m.code o) = .op o := by
  have hmem := h.2.2.1 o (mem_all o)
  have hlt := List.idxOf_lt_length_of_mem hmem
  simp [decodeOpcode, (toNat_code h o).1, List.getElem?_eq_getElem hlt]

/-- A byte that decodes to an operation is its code. -/
theorem eq_code_of_decodeOpcode {m : OpcodeMap} (h : m.Valid) {b : Byte} {o : Operation}
    (hb : decodeOpcode m b = .op o) : b = m.code o := by
  unfold decodeOpcode at hb
  split at hb
  · next o' ho =>
    simp only [Tag.op.injEq] at hb
    subst hb
    obtain ⟨hlt, he⟩ := List.getElem?_eq_some_iff.1 ho
    apply BitVec.eq_of_toNat_eq
    rw [(toNat_code h o').1, ← he, List.Nodup.idxOf_getElem h.2.1]
  · simp at hb

/-- "the tag is an operation exactly when bits 7 to 4 of the byte are zero" (R72). -/
theorem decodeOpcode_illegal_iff {m : OpcodeMap} (h : m.Valid) (b : Byte) :
    decodeOpcode m b = .illegal ↔ 16 ≤ b.toNat := by
  unfold decodeOpcode
  have hl := h.1
  by_cases hb : b.toNat < m.ops.length
  · simp only [List.getElem?_eq_getElem hb]
    simp
    omega
  · simp [List.getElem?_eq_none (Nat.not_lt.1 hb)]
    omega

/-! ### What a completed fetch says of the bytes -/

theorem fetchR1_ok {mk : RegIdx → Instr} {bs : List Byte} {i : Instr} (h : fetchR1 mk bs = .ok i) :
    ∃ a rest, bs = regByte a :: rest ∧ i = mk a := by
  unfold fetchR1 at h
  split at h
  · simp at h
  · next a rest ha =>
    obtain ⟨b, rfl, hb⟩ := nextRegIndex_ok ha
    exact ⟨a, rest, by rw [eq_regByte hb], by simpa using h.symm⟩

theorem fetchR2_ok {mk : RegIdx → RegIdx → Instr} {bs : List Byte} {i : Instr}
    (h : fetchR2 mk bs = .ok i) :
    ∃ a b rest, bs = regByte a :: regByte b :: rest ∧ i = mk a b := by
  unfold fetchR2 at h
  split at h
  · simp at h
  · next a rest ha =>
    obtain ⟨b, rfl, hb⟩ := nextRegIndex_ok ha
    obtain ⟨c, r, rfl, rfl⟩ := fetchR1_ok h
    exact ⟨a, c, r, by rw [eq_regByte hb], rfl⟩

theorem fetchR3_ok {mk : RegIdx → RegIdx → RegIdx → Instr} {bs : List Byte} {i : Instr}
    (h : fetchR3 mk bs = .ok i) :
    ∃ a b d rest, bs = regByte a :: regByte b :: regByte d :: rest ∧ i = mk a b d := by
  unfold fetchR3 at h
  split at h
  · simp at h
  · next a rest ha =>
    obtain ⟨b, rfl, hb⟩ := nextRegIndex_ok ha
    obtain ⟨c, d, r, rfl, rfl⟩ := fetchR2_ok h
    exact ⟨a, c, d, r, by rw [eq_regByte hb], rfl⟩

theorem fetchLI_ok {bs : List Byte} {i : Instr} (h : fetchLI bs = .ok i) :
    ∃ d hi lo rest, bs = regByte d :: hi :: lo :: rest ∧ i = .load d (hi ++ lo) := by
  unfold fetchLI at h
  split at h
  · simp at h
  · next a rest ha =>
    obtain ⟨b, rfl, hb⟩ := nextRegIndex_ok ha
    match rest, h with
    | [], h => simp [next16] at h
    | [_], h => simp [next16] at h
    | hi :: lo :: r, h => exact ⟨a, hi, lo, r, by rw [eq_regByte hb], by simpa using h.symm⟩

/-- The operands of an operation make an instruction of that operation. -/
theorem tag_of_fetchOperands {o : Operation} {bs : List Byte} {i : Instr}
    (h : fetchOperands o bs = .ok i) : i.tag = .op o := by
  cases o <;> simp only [fetchOperands] at h
  case load => obtain ⟨d, hi, lo, r, _, rfl⟩ := fetchLI_ok h; rfl
  case hlt => cases h; rfl
  case add | sub | mul | div => obtain ⟨a, b, d, r, _, rfl⟩ := fetchR3_ok h; rfl
  case jmp | jmpf | jmpb | jmpe => obtain ⟨a, r, _, rfl⟩ := fetchR1_ok h; rfl
  case eq | neq | gte | lte | gt | lt => obtain ⟨a, b, r, _, rfl⟩ := fetchR2_ok h; rfl

/-- The tag of a decoded instruction is the one its opcode byte decodes to. -/
theorem tag_of_decodeWith {m : OpcodeMap} {b : Byte} {bs : List Byte} {i : Instr}
    (h : decodeWith m (b :: bs) = .ok i) : i.tag = decodeOpcode m b := by
  simp only [decodeWith] at h
  split at h
  · next o ho => rw [ho, tag_of_fetchOperands h]
  · next ho => cases h; rw [ho]; rfl

end Sys2Proof
end

