-- ==== Sys2Proof/Laws/State.lean ====
section
/-! SUPPORT. One lemma per field per update of the state, so that no proof unfolds a record update, and
the laws of the register file. -/

namespace Sys2Proof.Machine

variable (s : State) (w : Staged) (o : CycleOutcome) (r q : RegIdx) (v : Word)

/-! ### The status latch -/

@[simp] theorem endCycle_x : (s.endCycle o).x = s.x := rfl
@[simp] theorem endCycle_pc : (s.endCycle o).pc = s.pc := rfl
@[simp] theorem endCycle_rem : (s.endCycle o).rem = s.rem := rfl
@[simp] theorem endCycle_eq : (s.endCycle o).eq = s.eq := rfl
@[simp] theorem endCycle_program : (s.endCycle o).program = s.program := rfl
@[simp] theorem endCycle_status : (s.endCycle o).status = ⟨o.runAfter, o⟩ := rfl
@[simp] theorem endCycle_reg : (s.endCycle o).reg r = s.reg r := rfl

theorem runAfter_running_iff : o.runAfter = .running ↔ o = .continued := by
  cases o <;> simp [CycleOutcome.runAfter]

/-! ### The commit -/

@[simp] theorem commit_pc : (s.commit w).pc = w.npc := rfl
@[simp] theorem commit_program : (s.commit w).program = s.program := rfl
@[simp] theorem commit_status : (s.commit w).status = s.status := rfl
@[simp] theorem commit_rem : (s.commit w).rem = w.rem.getD s.rem := rfl
@[simp] theorem commit_eq : (s.commit w).eq = w.eq.getD s.eq := rfl
@[simp] theorem commit_x_none (h : w.reg = none) : (s.commit w).x = s.x := by
  simp [State.commit, h]
@[simp] theorem commit_x_some (h : w.reg = some (r, v)) :
    (s.commit w).x = s.x.set r.val v r.isLt := by
  simp [State.commit, h]

/-! ### The register file -/

@[simp] theorem setReg_pc : (s.setReg r v).pc = s.pc := rfl
@[simp] theorem setReg_rem : (s.setReg r v).rem = s.rem := rfl
@[simp] theorem setReg_eq : (s.setReg r v).eq = s.eq := rfl
@[simp] theorem setReg_status : (s.setReg r v).status = s.status := rfl
@[simp] theorem setReg_program : (s.setReg r v).program = s.program := rfl
@[simp] theorem setReg_x : (s.setReg r v).x = s.x.set r.val v r.isLt := rfl

/-- Reading the register written gives the value written. -/
@[simp] theorem get_set_same (x : Vector Word 32) : (x.set r.val v r.isLt).get r = v := by
  simp [Vector.get_eq_getElem]

/-- Writing a register leaves every other one alone. -/
theorem get_set_other (x : Vector Word 32) (h : q ≠ r) :
    (x.set r.val v r.isLt).get q = x.get q := by
  have : r.val ≠ q.val := fun e => h (Fin.ext e.symm)
  simp [Vector.get_eq_getElem, this]

@[simp] theorem reg_setReg_same : (s.setReg r v).reg r = v := get_set_same r v s.x

theorem reg_setReg_other (h : q ≠ r) : (s.setReg r v).reg q = s.reg q :=
  get_set_other r q v s.x h

/-! ### The host's presets and reset -/

@[simp] theorem presetReg_eq_setReg : s.presetReg r v = s.setReg r v := rfl
@[simp] theorem presetPc_pc (a : Addr) : (s.presetPc a).pc = a := rfl
@[simp] theorem presetPc_status (a : Addr) : (s.presetPc a).status = s.status := rfl
@[simp] theorem presetPc_program (a : Addr) : (s.presetPc a).program = s.program := rfl
@[simp] theorem presetRem_rem : (s.presetRem v).rem = v := rfl
@[simp] theorem presetRem_status : (s.presetRem v).status = s.status := rfl
@[simp] theorem presetRem_program : (s.presetRem v).program = s.program := rfl
@[simp] theorem presetEq_eq (b : Bool) : (s.presetEq b).eq = b := rfl
@[simp] theorem presetEq_status (b : Bool) : (s.presetEq b).status = s.status := rfl
@[simp] theorem presetEq_program (b : Bool) : (s.presetEq b).program = s.program := rfl
@[simp] theorem beginRun_status : s.beginRun.status = ⟨.running, .continued⟩ := rfl
@[simp] theorem beginRun_program : s.beginRun.program = s.program := rfl
@[simp] theorem reset_reg : State.reset.reg r = 0 := by
  simp [State.reset, State.reg, Vector.get_eq_getElem]

end Sys2Proof.Machine
end

