-- ==== Sys2Proof/Laws/Memory.lean ====
section
/-! SUPPORT. The laws of the program store: read after write, every operation keeps the canonical form,
and equal programs are equal data. -/

namespace Sys2Proof.Machine

/-! ### Cells -/

theorem cellsWf_cons (n lo k : Nat) (b : Byte) (cs : List Host.Cell) :
    Memory.cellsWf n lo ((k, b) :: cs) = true ↔
      lo ≤ k ∧ k < n ∧ b ≠ Memory.unlisted ∧ Memory.cellsWf n (k + 1) cs = true := by
  simp [Memory.cellsWf, and_assoc]

/-- A lower bound may be lowered. -/
theorem cellsWf_mono {n lo lo' : Nat} (h : lo' ≤ lo) :
    ∀ {cs : List Host.Cell}, Memory.cellsWf n lo cs = true → Memory.cellsWf n lo' cs = true
  | [], _ => rfl
  | (k, b) :: cs, hw => by
    rw [cellsWf_cons] at hw ⊢
    exact ⟨h.trans hw.1, hw.2⟩

/-- A length may be raised. -/
theorem cellsWf_grow {n n' : Nat} (h : n ≤ n') :
    ∀ {lo : Nat} {cs : List Host.Cell}, Memory.cellsWf n lo cs = true → Memory.cellsWf n' lo cs = true
  | _, [], _ => rfl
  | _, (k, b) :: cs, hw => by
    rw [cellsWf_cons] at hw ⊢
    exact ⟨hw.1, hw.2.1.trans_le h, hw.2.2.1, cellsWf_grow h hw.2.2.2⟩

/-- No cell below the bound is listed. -/
theorem lookup_below {n : Nat} : ∀ {lo a : Nat} {cs : List Host.Cell},
    Memory.cellsWf n lo cs = true → a < lo → Memory.lookup cs a = Memory.unlisted
  | _, _, [], _, _ => rfl
  | lo, a, (k, b) :: cs, hw, ha => by
    rw [cellsWf_cons] at hw
    have hk : k ≠ a := by omega
    simp [Memory.lookup, hk, lookup_below hw.2.2.2 (by omega : a < k + 1)]

/-- An insertion at or above the bound and below the length keeps the canonical form. -/
theorem cellsWf_insert {n a : Nat} (b : Byte) (ha : a < n) : ∀ {lo : Nat} {cs : List Host.Cell},
    lo ≤ a → Memory.cellsWf n lo cs = true → Memory.cellsWf n lo (Memory.insert a b cs) = true
  | lo, [], hl, _ => by
    by_cases hb : b = Memory.unlisted
    · simp [Memory.insert, hb, Memory.cellsWf]
    · simp [Memory.insert, hb, Memory.cellsWf, hl, ha]
  | lo, (k, c) :: cs, hl, hw => by
    rw [cellsWf_cons] at hw
    obtain ⟨h1, h2, h3, h4⟩ := hw
    rcases Nat.lt_trichotomy a k with hk | rfl | hk
    · by_cases hb : b = Memory.unlisted
      · simp [Memory.insert, hk, hb, cellsWf_cons, h1, h2, h3, h4]
      · simp [Memory.insert, hk, hb, cellsWf_cons, hl, ha, h2, h3, h4, Nat.succ_le_of_lt hk]
    · by_cases hb : b = Memory.unlisted
      · simpa [Memory.insert, hb] using cellsWf_mono (by omega : lo ≤ a + 1) h4
      · simp [Memory.insert, hb, cellsWf_cons, h1, h2, h4]
    · have hne : ¬ a < k := by omega
      have hne' : a ≠ k := by omega
      simp only [Memory.insert, hne, hne', if_false, cellsWf_cons]
      exact ⟨h1, h2, h3, cellsWf_insert b ha (by omega) h4⟩

/-- Read after insert, at the same offset and at any other. -/
theorem lookup_insert {n : Nat} (a : Nat) (b : Byte) (q : Nat) : ∀ {lo : Nat} {cs : List Host.Cell},
    Memory.cellsWf n lo cs = true →
      Memory.lookup (Memory.insert a b cs) q = if q = a then b else Memory.lookup cs q
  | _, [], _ => by
    by_cases hb : b = Memory.unlisted <;> by_cases hq : q = a <;>
      simp [Memory.insert, Memory.lookup, hb, hq, eq_comm]
    intro h
    exact absurd h.symm hq
  | lo, (k, c) :: cs, hw => by
    rw [cellsWf_cons] at hw
    obtain ⟨_, _, _, h4⟩ := hw
    rcases Nat.lt_trichotomy a k with hk | rfl | hk
    · have hka : k ≠ a := by omega
      have hz : Memory.lookup cs a = Memory.unlisted := lookup_below h4 (by omega)
      by_cases hb : b = Memory.unlisted <;> by_cases hq : q = a
      · subst hq; simp [Memory.insert, hk, hb, Memory.lookup, hka, hz]
      · simp [Memory.insert, hk, hb, hq]
      · subst hq; simp [Memory.insert, hk, hb, Memory.lookup]
      · simp [Memory.insert, hk, hb, hq, Memory.lookup, Ne.symm hq]
    · have hz : Memory.lookup cs a = Memory.unlisted := lookup_below h4 (by omega)
      by_cases hb : b = Memory.unlisted <;> by_cases hq : q = a
      · subst hq; simp [Memory.insert, hb, hz]
      · simp [Memory.insert, hb, hq, Memory.lookup, Ne.symm hq]
      · subst hq; simp [Memory.insert, hb, Memory.lookup]
      · simp [Memory.insert, hb, hq, Memory.lookup, Ne.symm hq]
    · have hne : ¬ a < k := by omega
      have hne' : a ≠ k := by omega
      simp only [Memory.insert, hne, hne', if_false, Memory.lookup]
      rw [lookup_insert a b q h4]
      by_cases hkq : k = q
      · have : q ≠ a := by omega
        simp [hkq, this]
      · simp [hkq]

/-! ### Reading and writing bytes -/

theorem byte?_eq_none_iff (m : Memory) (a : Nat) : m.byte? a = none ↔ m.size ≤ a := by
  simp [Memory.byte?]

theorem byte?_isSome_iff (m : Memory) (a : Nat) : (m.byte? a).isSome ↔ a < m.size := by
  by_cases h : a < m.size <;> simp [Memory.byte?, h]

@[simp] theorem write_size (m : Memory) (a : Nat) (b : Byte) : (m.write a b).size = m.size := by
  unfold Memory.write; split <;> rfl

@[simp] theorem extendTo_size (m : Memory) (n : Nat) : (m.extendTo n).size = max m.size n := rfl

@[simp] theorem ofBytes_size (bs : List Byte) : (Memory.ofBytes bs).size = bs.length := rfl

theorem wf_write {m : Memory} (h : m.wf = true) (a : Nat) (b : Byte) : (m.write a b).wf = true := by
  unfold Memory.write
  split
  · next ha => exact cellsWf_insert b ha (Nat.zero_le a) h
  · exact h

/-- Read after write: the byte written at its offset, every other byte as before. -/
theorem byte?_write {m : Memory} (h : m.wf = true) {a : Nat} (ha : a < m.size) (b : Byte) (q : Nat) :
    (m.write a b).byte? q = if q = a then some b else m.byte? q := by
  have hl := lookup_insert a b q h
  by_cases hq : q = a
  · subst hq; simp [Memory.write, Memory.byte?, ha, hl]
  · simp [Memory.write, Memory.byte?, ha, hl, hq]

@[simp] theorem writeBytes_size (bs : List Byte) :
    ∀ (m : Memory) (a : Nat), (m.writeBytes a bs).size = m.size := by
  induction bs with
  | nil => intros; rfl
  | cons b bs ih => intro m a; simp [Memory.writeBytes, ih]

theorem wf_writeBytes (bs : List Byte) :
    ∀ {m : Memory} (a : Nat), m.wf = true → (m.writeBytes a bs).wf = true := by
  induction bs with
  | nil => intro m a h; exact h
  | cons b bs ih => intro m a h; exact ih (a + 1) (wf_write h a b)

theorem wf_extendTo {m : Memory} (h : m.wf = true) (n : Nat) : (m.extendTo n).wf = true :=
  cellsWf_grow (Nat.le_max_left _ _) h

/-- Writing consecutive bytes leaves every offset before them alone. -/
theorem byte?_writeBytes_below (bs : List Byte) : ∀ {m : Memory} {a q : Nat}, m.wf = true →
    a + bs.length ≤ m.size → q < a → (m.writeBytes a bs).byte? q = m.byte? q := by
  induction bs with
  | nil => intros; rfl
  | cons b bs ih =>
    intro m a q h hs hq
    simp only [List.length_cons] at hs
    rw [Memory.writeBytes, ih (wf_write h a b) (by simp; omega) (by omega),
      byte?_write h (by omega), if_neg (by omega)]

/-- Consecutive bytes written are read back. -/
theorem byte?_writeBytes (bs : List Byte) : ∀ {m : Memory} {a : Nat} (k : Nat), m.wf = true →
    a + bs.length ≤ m.size → k < bs.length → (m.writeBytes a bs).byte? (a + k) = bs[k]? := by
  induction bs with
  | nil => intro m a k _ _ hk; simp at hk
  | cons b bs ih =>
    intro m a k h hs hk
    simp only [List.length_cons] at hs hk
    cases k with
    | zero =>
      rw [Memory.writeBytes, Nat.add_zero,
        byte?_writeBytes_below bs (wf_write h a b) (by simp; omega) (by omega),
        byte?_write h (by omega)]
      simp
    | succ k =>
      rw [Memory.writeBytes, show a + (k + 1) = a + 1 + k by omega,
        ih k (wf_write h a b) (by simp; omega) (by omega)]
      simp

/-! ### A program from its bytes -/

theorem cellsWf_cellsFrom (bs : List Byte) :
    ∀ {a n : Nat}, a + bs.length ≤ n → Memory.cellsWf n a (Memory.cellsFrom a bs) = true := by
  induction bs with
  | nil => intros; rfl
  | cons b bs ih =>
    intro a n h
    simp only [List.length_cons] at h
    have hrest := ih (a := a + 1) (n := n) (by omega)
    by_cases hb : b = Memory.unlisted
    · simpa [Memory.cellsFrom, hb] using cellsWf_mono (by omega) hrest
    · simp [Memory.cellsFrom, hb, cellsWf_cons, hrest]
      omega

theorem lookup_cellsFrom (bs : List Byte) :
    ∀ (a k : Nat), Memory.lookup (Memory.cellsFrom a bs) (a + k) = bs[k]?.getD Memory.unlisted := by
  induction bs with
  | nil => intros; rfl
  | cons b bs ih =>
    intro a k
    have hwf : Memory.cellsWf (a + 1 + bs.length) (a + 1) (Memory.cellsFrom (a + 1) bs) = true :=
      cellsWf_cellsFrom bs (Nat.le_refl _)
    cases k with
    | zero =>
      have hz := lookup_below hwf (Nat.lt_succ_self a)
      by_cases hb : b = Memory.unlisted <;> simp [Memory.cellsFrom, hb, Memory.lookup, hz]
    | succ k =>
      have hk := ih (a + 1) k
      rw [show a + 1 + k = a + (k + 1) by omega] at hk
      by_cases hb : b = Memory.unlisted <;> simp [Memory.cellsFrom, hb, Memory.lookup, hk]

theorem wf_ofBytes (bs : List Byte) : (Memory.ofBytes bs).wf = true :=
  cellsWf_cellsFrom bs (by simp)

/-- The bytes a program is assigned are the bytes it holds, and there are no others. -/
theorem byte?_ofBytes (bs : List Byte) (a : Nat) : (Memory.ofBytes bs).byte? a = bs[a]? := by
  have h := lookup_cellsFrom bs 0 a
  rw [Nat.zero_add] at h
  by_cases ha : a < bs.length
  · simp [Memory.byte?, Memory.ofBytes, ha, h]
  · simp [Memory.byte?, Memory.ofBytes, ha]

theorem wf_reset : State.reset.program.wf = true := rfl

/-! ### Equal programs are equal data -/

theorem cells_ext {n : Nat} : ∀ {lo : Nat} {cs ds : List Host.Cell},
    Memory.cellsWf n lo cs = true → Memory.cellsWf n lo ds = true →
    (∀ a, Memory.lookup cs a = Memory.lookup ds a) → cs = ds
  | _, [], [], _, _, _ => rfl
  | lo, [], (k, b) :: ds, _, hd, h => by
    rw [cellsWf_cons] at hd
    exact absurd (by simpa [Memory.lookup] using (h k).symm) hd.2.2.1
  | lo, (k, b) :: cs, [], hc, _, h => by
    rw [cellsWf_cons] at hc
    exact absurd (by simpa [Memory.lookup] using h k) hc.2.2.1
  | lo, (k, b) :: cs, (l, d) :: ds, hc, hd, h => by
    rw [cellsWf_cons] at hc hd
    have hcb := lookup_below (a := l) hc.2.2.2
    have hdb := lookup_below (a := k) hd.2.2.2
    have hk := h k
    have hl := h l
    simp only [Memory.lookup] at hk hl
    have hkl : k = l := by
      rcases Nat.lt_trichotomy k l with hlt | he | hlt
      · rw [if_true, if_neg (by omega), hdb (by omega)] at hk
        exact absurd hk hc.2.2.1
      · exact he
      · rw [if_neg (by omega), if_true, hcb (by omega)] at hl
        exact absurd hl.symm hd.2.2.1
    subst hkl
    simp only [if_true] at hk
    subst hk
    have hrest : ∀ a, Memory.lookup cs a = Memory.lookup ds a := by
      intro a
      by_cases hka : k = a
      · subst hka
        rw [lookup_below hc.2.2.2 (by omega), lookup_below hd.2.2.2 (by omega)]
      · simpa [Memory.lookup, hka] using h a
    rw [cells_ext hc.2.2.2 hd.2.2.2 hrest]

/-- No cell at or past the length is listed. -/
theorem lookup_past {n : Nat} : ∀ {lo a : Nat} {cs : List Host.Cell},
    Memory.cellsWf n lo cs = true → n ≤ a → Memory.lookup cs a = Memory.unlisted
  | _, _, [], _, _ => rfl
  | lo, a, (k, b) :: cs, hw, ha => by
    rw [cellsWf_cons] at hw
    have hk : k ≠ a := by omega
    simp [Memory.lookup, hk, lookup_past hw.2.2.2 ha]

/-- Two canonical programs that read alike at every offset are the same data. -/
theorem memory_ext {m p : Memory} (hm : m.wf = true) (hp : p.wf = true)
    (h : ∀ a, m.byte? a = p.byte? a) : m = p := by
  have hs : m.size = p.size := by
    have h1 := (byte?_eq_none_iff p m.size).1 ((h m.size).symm.trans ((byte?_eq_none_iff m _).2 le_rfl))
    have h2 := (byte?_eq_none_iff m p.size).1 ((h p.size).trans ((byte?_eq_none_iff p _).2 le_rfl))
    omega
  obtain ⟨n, cs⟩ := m
  obtain ⟨n', ds⟩ := p
  simp only at hs
  subst hs
  have : cs = ds := by
    refine cells_ext hm hp fun a => ?_
    by_cases ha : a < n
    · simpa [Memory.byte?, ha] using h a
    · have ha' : n ≤ a := by omega
      rw [lookup_past hm ha', lookup_past hp ha']
  rw [this]

end Sys2Proof.Machine
end

