-- ==== Sys2Proof/Laws/Step.lean ====
section
/-! SUPPORT. What the shared operations, an instruction and a cycle can do, said once: the provers cite
these and do not unfold `exec` or `step`. -/

namespace Sys2Proof.Machine

variable {s t : State}

/-! ### The shared operations -/

@[simp] theorem completes_eq (w : Staged) :
    s.completes w = .next ((s.commit w).endCycle .continued) := rfl
@[simp] theorem stops_eq (a : Addr) (o : CycleOutcome) :
    s.stops a o = .next ((s.commit { npc := a }).endCycle o) := rfl
@[simp] theorem takeFault_eq (r : FaultReason) : s.takeFault r = .next (s.endCycle (.fault r)) := rfl
@[simp] theorem takeProgramEnd_eq : s.takeProgramEnd = .next (s.endCycle .programEnd) := rfl

/-- A range check passes exactly for the integers a program counter can hold. -/
theorem checkTarget_eq_some {n : Int} {a : Addr} :
    checkTarget n = some a ↔ (a.toNat : Int) = n := by
  unfold checkTarget Config.pcLimit
  have ha := a.isLt
  split
  · next h =>
    simp only [Option.some.injEq]
    constructor
    · rintro rfl
      simp only [BitVec.toNat_ofNat]
      omega
    · intro he
      apply BitVec.eq_of_toNat_eq
      simp only [BitVec.toNat_ofNat]
      omega
  · next h =>
    simp only [reduceCtorEq, false_iff]
    omega

theorem checkTarget_eq_none {n : Int} :
    checkTarget n = none ↔ n < 0 ∨ (Config.pcLimit : Int) ≤ n := by
  unfold checkTarget Config.pcLimit
  split <;> simp <;> omega

/-- A jump completes at its exact target, or takes the fault (R161). -/
theorem jump_cases (k : JumpKind) (v : Int) :
    (∃ a : Addr, (a.toNat : Int) = k.target s.jumpBase v ∧
      s.jump k v = .next ((s.commit { npc := a }).endCycle .continued)) ∨
    ((k.target s.jumpBase v < 0 ∨ (Config.pcLimit : Int) ≤ k.target s.jumpBase v) ∧
      s.jump k v = .next (s.endCycle (.fault .jumpOutOfRange))) := by
  unfold State.jump
  cases h : checkTarget (k.target s.jumpBase v) with
  | some a => exact .inl ⟨a, checkTarget_eq_some.1 h, rfl⟩
  | none => exact .inr ⟨checkTarget_eq_none.1 h, rfl⟩

/-! ### An instruction -/

/-- What an instruction stages when it completes: the writes its row of R21, R30 and R31 allows. -/
structure StagedBy (s : State) (i : Instr) (w : Staged) : Prop where
  reg : w.reg = none ∨ ∃ d v, destination i = some d ∧ w.reg = some (d, v)
  rem : w.rem = none ∨ ∃ a b d, i = .div a b d
  eq : w.eq = none ∨ isComparison i = true
  npc : fallsThrough i = true → w.npc = s.seq 4

/-- Everything an instruction can do: complete with the writes of its row, stop one byte on, or take one
of the two faults an instruction itself raises. -/
theorem exec_cases (i : Instr) (s : State) :
    (∃ w, StagedBy s i w ∧ i ≠ .hlt ∧ (∀ b, i ≠ .illegal b) ∧
      exec i s = .next ((s.commit w).endCycle .continued)) ∨
    (i = .hlt ∧ exec i s = .next ((s.commit { npc := s.seq 1 }).endCycle .halted)) ∨
    ((∃ b, i = .illegal b) ∧
      exec i s = .next ((s.commit { npc := s.seq 1 }).endCycle .illegalOpcode)) ∨
    ((∃ a b d, i = .div a b d) ∧ exec i s = .next (s.endCycle (.fault .divisionByZero))) ∨
    (((∃ r, i = .jmp r) ∨ (∃ r, i = .jmpf r) ∨ (∃ r, i = .jmpb r) ∨ (∃ r, i = .jmpe r)) ∧
      exec i s = .next (s.endCycle (.fault .jumpOutOfRange))) := by
  have jump (i : Instr) (k : JumpKind) (v : Int) (he : exec i s = s.jump k v)
      (hi : (∃ r, i = .jmp r) ∨ (∃ r, i = .jmpf r) ∨ (∃ r, i = .jmpb r) ∨ (∃ r, i = .jmpe r))
      (hf : fallsThrough i = false) (h1 : i ≠ .hlt) (h2 : ∀ b, i ≠ .illegal b) :
      (∃ w, StagedBy s i w ∧ i ≠ .hlt ∧ (∀ b, i ≠ .illegal b) ∧
        exec i s = .next ((s.commit w).endCycle .continued)) ∨
      (((∃ r, i = .jmp r) ∨ (∃ r, i = .jmpf r) ∨ (∃ r, i = .jmpb r) ∨ (∃ r, i = .jmpe r)) ∧
        exec i s = .next (s.endCycle (.fault .jumpOutOfRange))) := by
    rcases jump_cases (s := s) k v with ⟨a, _, h⟩ | ⟨_, h⟩
    · exact .inl ⟨{ npc := a }, ⟨.inl rfl, .inl rfl, .inl rfl, by simp [hf]⟩, h1, h2, he.trans h⟩
    · exact .inr ⟨hi, he.trans h⟩
  have merge {P Q A B C : Prop} (h : P ∨ Q) : P ∨ A ∨ B ∨ C ∨ Q :=
    h.elim .inl fun q => .inr (.inr (.inr (.inr q)))
  cases i with
  | load d imm =>
    exact .inl ⟨_, ⟨.inr ⟨d, _, rfl, rfl⟩, .inl rfl, .inl rfl, fun _ => rfl⟩, by simp, by simp, rfl⟩
  | add a b d =>
    exact .inl ⟨_, ⟨.inr ⟨d, _, rfl, rfl⟩, .inl rfl, .inl rfl, fun _ => rfl⟩, by simp, by simp, rfl⟩
  | sub a b d =>
    exact .inl ⟨_, ⟨.inr ⟨d, _, rfl, rfl⟩, .inl rfl, .inl rfl, fun _ => rfl⟩, by simp, by simp, rfl⟩
  | mul a b d =>
    exact .inl ⟨_, ⟨.inr ⟨d, _, rfl, rfl⟩, .inl rfl, .inl rfl, fun _ => rfl⟩, by simp, by simp, rfl⟩
  | div a b d =>
    by_cases hz : aluDivByZero (s.source b) = true
    · exact .inr (.inr (.inr (.inl ⟨⟨a, b, d, rfl⟩, by simp [exec, execDiv, hz]⟩)))
    · exact .inl ⟨_, ⟨.inr ⟨d, _, rfl, rfl⟩, .inr ⟨a, b, d, rfl⟩, .inl rfl, fun _ => rfl⟩, by simp,
        by simp, by simp only [exec, execDiv, hz]; rfl⟩
  | hlt => exact .inr (.inl ⟨rfl, rfl⟩)
  | jmp r => exact merge (jump _ _ _ rfl (.inl ⟨r, rfl⟩) rfl (by simp) (by simp))
  | jmpf r => exact merge (jump _ _ _ rfl (.inr (.inl ⟨r, rfl⟩)) rfl (by simp) (by simp))
  | jmpb r => exact merge (jump _ _ _ rfl (.inr (.inr (.inl ⟨r, rfl⟩))) rfl (by simp) (by simp))
  | jmpe r =>
    by_cases he : s.eq = true
    · exact merge (jump _ .abs (s.source r) (by simp only [exec, execJmpe, he, if_true])
        (.inr (.inr (.inr ⟨r, rfl⟩))) rfl (by simp) (by simp))
    · exact .inl ⟨{ npc := s.seq 4 }, ⟨.inl rfl, .inl rfl, .inl rfl, fun _ => rfl⟩, by simp, by simp,
        by simp [exec, execJmpe, he]⟩
  | eq a b =>
    exact .inl ⟨_, ⟨.inl rfl, .inl rfl, .inr rfl, fun _ => rfl⟩, by simp, by simp, rfl⟩
  | neq a b =>
    exact .inl ⟨_, ⟨.inl rfl, .inl rfl, .inr rfl, fun _ => rfl⟩, by simp, by simp, rfl⟩
  | gte a b =>
    exact .inl ⟨_, ⟨.inl rfl, .inl rfl, .inr rfl, fun _ => rfl⟩, by simp, by simp, rfl⟩
  | lte a b =>
    exact .inl ⟨_, ⟨.inl rfl, .inl rfl, .inr rfl, fun _ => rfl⟩, by simp, by simp, rfl⟩
  | gt a b =>
    exact .inl ⟨_, ⟨.inl rfl, .inl rfl, .inr rfl, fun _ => rfl⟩, by simp, by simp, rfl⟩
  | lt a b =>
    exact .inl ⟨_, ⟨.inl rfl, .inl rfl, .inr rfl, fun _ => rfl⟩, by simp, by simp, rfl⟩
  | illegal b => exact .inr (.inr (.inl ⟨⟨b, rfl⟩, rfl⟩))

/-- The commit in its plain form: what an instruction's writes leave. -/
theorem commit_frame {i : Instr} {w : Staged} (h : StagedBy s i w) :
    (∀ r, destination i ≠ some r → (s.commit w).reg r = s.reg r) ∧
    ((∀ a b d, i ≠ .div a b d) → (s.commit w).rem = s.rem) ∧
    (isComparison i = false → (s.commit w).eq = s.eq) := by
  refine ⟨fun r hr => ?_, fun hd => ?_, fun hc => ?_⟩
  · rcases h.reg with hn | ⟨d, v, hd, hv⟩
    · simp [State.reg, hn]
    · have hne : r ≠ d := fun e => hr (e ▸ hd)
      simpa [State.reg, commit_x_some s w d v hv] using get_set_other d r v s.x hne
  · rcases h.rem with hn | ⟨a, b, d, rfl⟩
    · simp [hn]
    · exact absurd rfl (hd a b d)
  · rcases h.eq with hn | ht
    · simp [hn]
    · simp [hc] at ht

/-! ### A cycle -/

/-- Everything a step can do from a program within the bound: end at the program's end, reject its
bytes, or run the instruction they decode to. -/
theorem step_cases (h : s.program.size ≤ Config.progMaxLen) :
    (s.program.size ≤ s.pc.toNat ∧ step s = .next (s.endCycle .programEnd)) ∨
    (s.pc.toNat < s.program.size ∧ ∃ r, decode s.fetchBytes = .error r ∧ step s = s.takeReject r) ∨
    (s.pc.toNat < s.program.size ∧ ∃ i, decode s.fetchBytes = .ok i ∧ step s = exec i s) := by
  have hl : s.programTooLong = false := by simp [State.programTooLong, h]
  by_cases he : s.program.size ≤ s.pc.toNat
  · exact .inl ⟨he, by simp [step, hl, State.atProgramEnd, he]⟩
  · have hp : s.atProgramEnd = false := by simp [State.atProgramEnd]; omega
    cases hd : decode s.fetchBytes with
    | error r => exact .inr (.inl ⟨by omega, r, rfl, by simp [step, hl, hp, hd]⟩)
    | ok i => exact .inr (.inr ⟨by omega, i, rfl, by simp [step, hl, hp, hd]⟩)

/-- Outside the bound there is no step (log entry 3). -/
theorem step_programTooLong (h : Config.progMaxLen < s.program.size) :
    step s = .fault .programTooLong := by
  simp [step, State.programTooLong, h]

/-- A step with a next state starts from a program within the bound. -/
theorem size_le_of_step (h : step s = .next t) : s.program.size ≤ Config.progMaxLen := by
  by_contra hn
  rw [step_programTooLong (by omega)] at h
  simp at h

/-- The bytes a cycle may fetch, one at a time. -/
theorem bytesFrom_cons {m : Memory} {a n : Nat} {b : Byte} (h : m.byte? a = some b) :
    m.bytesFrom a (n + 1) = b :: m.bytesFrom (a + 1) n := by
  simp [Memory.bytesFrom, h]

theorem bytesFrom_nil {m : Memory} {a n : Nat} (h : m.byte? a = none) : m.bytesFrom a n = [] := by
  cases n <;> simp [Memory.bytesFrom, h]

/-- The bytes fetched are the program's. -/
theorem getElem?_bytesFrom {m : Memory} : ∀ (n a k : Nat), k < n →
    (m.bytesFrom a n)[k]? = m.byte? (a + k)
  | 0, _, _, h => absurd h (Nat.not_lt_zero _)
  | n + 1, a, k, h => by
    cases hb : m.byte? a with
    | none =>
      have hs := (byte?_eq_none_iff m a).1 hb
      rw [bytesFrom_nil hb, (byte?_eq_none_iff m (a + k)).2 (by omega)]
      rfl
    | some b =>
      rw [bytesFrom_cons hb]
      cases k with
      | zero => simp [hb]
      | succ k =>
        rw [List.getElem?_cons_succ, getElem?_bytesFrom n (a + 1) k (by omega)]
        congr 1
        omega

/-- An instruction placed at `pc` is what the next cycle fetches (log entry 6). -/
theorem fetchBytes_withFetchWord (h : s.program.wf = true) (nbits w : Nat) :
    (s.withFetchWord nbits w).fetchBytes = tableWordBytes nbits w := by
  apply List.ext_getElem?
  intro k
  have hlen : (tableWordBytes nbits w).length = 4 := rfl
  have hle : ∀ (m : Memory) (n a : Nat), (m.bytesFrom a n).length ≤ n := by
    intro m n
    induction n with
    | zero => intro a; simp [Memory.bytesFrom]
    | succ n ih =>
      intro a
      cases hb : m.byte? a with
      | none => simp [bytesFrom_nil hb]
      | some b => simpa [bytesFrom_cons hb] using ih (a + 1)
  by_cases hk : k < 4
  · unfold State.fetchBytes
    rw [getElem?_bytesFrom _ _ _ hk]
    exact byte?_writeBytes _ k (wf_extendTo h _) (by simp [hlen]) (by omega)
  · have h1 : (s.withFetchWord nbits w).fetchBytes.length ≤ k := (hle _ _ _).trans (Nat.not_lt.1 hk)
    rw [List.getElem?_eq_none h1, List.getElem?_eq_none (by omega)]

end Sys2Proof.Machine
end

