-- ==== Sys2Proof/Laws/HostPort.lean ====
section
/-! SUPPORT. What a run does with its next cycle, and the exact sequential advance, one lemma each. -/

namespace Sys2Proof.Machine

variable {s t : State}

/-- A run starts from the state with only `status` changed (R113, R241). -/
theorem run_eq (fuel : Nat) : s.run fuel = runCycles fuel { s with status := ⟨.running, .continued⟩ } := rfl

@[simp] theorem runCycles_zero (s : State) : runCycles 0 s = none := rfl

/-- A cycle that stops ends the run there. -/
theorem runCycles_stopped (h : step s = .next t) (hr : t.status.run = .stopped) (fuel : Nat) :
    runCycles (fuel + 1) s = some t := by
  simp [runCycles, h, hr]

/-- A cycle that continues hands the run on. -/
theorem runCycles_running (h : step s = .next t) (hr : t.status.run = .running) (fuel : Nat) :
    runCycles (fuel + 1) s = runCycles fuel t := by
  simp [runCycles, h, hr]

/-- Everything a run can do with its first cycle when it returns. -/
theorem runCycles_cases {fuel : Nat} (h : runCycles fuel s = some t) :
    ∃ n u, fuel = n + 1 ∧ step s = .next u ∧
      ((u.status.run = .stopped ∧ u = t) ∨ (u.status.run = .running ∧ runCycles n u = some t)) := by
  cases fuel with
  | zero => simp at h
  | succ n =>
    cases hs : step s with
    | next u =>
      refine ⟨n, u, rfl, rfl, ?_⟩
      cases hr : u.status.run with
      | running => exact .inr ⟨rfl, by rw [← h, runCycles_running hs hr]⟩
      | stopped => exact .inl ⟨rfl, by rw [runCycles_stopped hs hr] at h; exact Option.some.inj h⟩
    | fault r => simp [runCycles, hs] at h
    | refused r => simp [runCycles, hs] at h

/-- The sequential advance is the exact sum wherever that is below 2^32 (R28, R162; log entry 11). -/
theorem toNat_seq {n : Nat} (h : s.pc.toNat + n < 2 ^ 32) : (s.seq n).toNat = s.pc.toNat + n := by
  simp only [State.seq, BitVec.toNat_add, BitVec.toNat_ofNat]
  omega

end Sys2Proof.Machine
end

