-- ==== Sys2Proof/Laws/PerInstr.lean ====
section
/-! SUPPORT. The per-instruction family of LAWS.json. -/

namespace Sys2Proof.Laws.Length

/-- "Every instruction is nominally 4 bytes" (R70): its encoding has four bytes under every opcode map,
and the bytes it fetches and steps over are among them; they are all four for every instruction that
falls through to the next one (R76). -/
def Statement (i : Instr) : Prop :=
  (∀ m, (encodeWith m i).length = Config.insnBytes) ∧ 1 ≤ i.bytesFetched ∧
  i.bytesFetched + i.bytesSteppedOver ≤ Config.insnBytes

theorem load (reg : RegIdx) (imm : Imm) : Statement (.load reg imm) :=
  ⟨fun _ => rfl, Nat.le_of_ble_eq_true rfl, Nat.le_of_ble_eq_true rfl⟩
theorem add (a b d : RegIdx) : Statement (.add a b d) :=
  ⟨fun _ => rfl, Nat.le_of_ble_eq_true rfl, Nat.le_of_ble_eq_true rfl⟩
theorem sub (a b d : RegIdx) : Statement (.sub a b d) :=
  ⟨fun _ => rfl, Nat.le_of_ble_eq_true rfl, Nat.le_of_ble_eq_true rfl⟩
theorem mul (a b d : RegIdx) : Statement (.mul a b d) :=
  ⟨fun _ => rfl, Nat.le_of_ble_eq_true rfl, Nat.le_of_ble_eq_true rfl⟩
theorem div (a b d : RegIdx) : Statement (.div a b d) :=
  ⟨fun _ => rfl, Nat.le_of_ble_eq_true rfl, Nat.le_of_ble_eq_true rfl⟩
theorem hlt : Statement .hlt :=
  ⟨fun _ => rfl, Nat.le_of_ble_eq_true rfl, Nat.le_of_ble_eq_true rfl⟩
theorem jmp (r : RegIdx) : Statement (.jmp r) :=
  ⟨fun _ => rfl, Nat.le_of_ble_eq_true rfl, Nat.le_of_ble_eq_true rfl⟩
theorem jmpf (r : RegIdx) : Statement (.jmpf r) :=
  ⟨fun _ => rfl, Nat.le_of_ble_eq_true rfl, Nat.le_of_ble_eq_true rfl⟩
theorem jmpb (r : RegIdx) : Statement (.jmpb r) :=
  ⟨fun _ => rfl, Nat.le_of_ble_eq_true rfl, Nat.le_of_ble_eq_true rfl⟩
theorem jmpe (r : RegIdx) : Statement (.jmpe r) :=
  ⟨fun _ => rfl, Nat.le_of_ble_eq_true rfl, Nat.le_of_ble_eq_true rfl⟩
theorem eq (a b : RegIdx) : Statement (.eq a b) :=
  ⟨fun _ => rfl, Nat.le_of_ble_eq_true rfl, Nat.le_of_ble_eq_true rfl⟩
theorem neq (a b : RegIdx) : Statement (.neq a b) :=
  ⟨fun _ => rfl, Nat.le_of_ble_eq_true rfl, Nat.le_of_ble_eq_true rfl⟩
theorem gte (a b : RegIdx) : Statement (.gte a b) :=
  ⟨fun _ => rfl, Nat.le_of_ble_eq_true rfl, Nat.le_of_ble_eq_true rfl⟩
theorem lte (a b : RegIdx) : Statement (.lte a b) :=
  ⟨fun _ => rfl, Nat.le_of_ble_eq_true rfl, Nat.le_of_ble_eq_true rfl⟩
theorem gt (a b : RegIdx) : Statement (.gt a b) :=
  ⟨fun _ => rfl, Nat.le_of_ble_eq_true rfl, Nat.le_of_ble_eq_true rfl⟩
theorem lt (a b : RegIdx) : Statement (.lt a b) :=
  ⟨fun _ => rfl, Nat.le_of_ble_eq_true rfl, Nat.le_of_ble_eq_true rfl⟩
theorem illegal (op : Byte) : Statement (.illegal op) :=
  ⟨fun _ => rfl, Nat.le_of_ble_eq_true rfl, Nat.le_of_ble_eq_true rfl⟩

end Sys2Proof.Laws.Length
end

