-- ==== Sys2Proof/Tests/Slice0.lean ====
section
/-! SUPPORT. The model's own tests, one step each on a small state, and a witness for the hypotheses of
each statement. Expected results are those of the worked examples and vectors of
spec/95_test_vectors.md (S1 to S10, V-…) and of the rules' own examples; none is the model's. -/

namespace Sys2Proof.Tests

open Sys2Proof.Machine

/-! ### Helpers -/

/-- A program assigned after reset, with registers preset. -/
def start (bs : List Byte) (regs : List (RegIdx × Int)) : State :=
  regs.foldl (fun s p => s.presetReg p.1 (BitVec.ofInt 32 p.2))
    { State.reset with program := Memory.ofBytes bs }

/-- What is observed of the state after one cycle. -/
def after {α : Type} (s : State) (f : State → α) : Option α := (nextState (step s)).map f

/-- The host's view of `status`: `run` and the code of `cause`. -/
def latch (s : State) : Nat × Nat := (s.status.run.bit.toNat, s.status.cause.code.toNat)

/-- The greatest and least register values. -/
def imax : Int := 2147483647
def imin : Int := -2147483648

/-! ### Well-formed instructions and opcode maps -/

theorem test_illegal_15_is_ill_formed : (Instr.illegal 15).wellFormed = false := by decide
theorem test_illegal_16_is_well_formed : (Instr.illegal 16).wellFormed = true := by decide
theorem test_map_with_hlt_last_is_not_valid :
    ¬ OpcodeMap.Valid ⟨[.load, .add, .sub, .mul, .div, .jmp, .jmpf, .jmpb, .jmpe, .eq, .neq, .gte,
      .lte, .gt, .lt, .hlt]⟩ := by decide
theorem test_map_with_a_repeat_is_not_valid :
    ¬ OpcodeMap.Valid ⟨[.load, .add, .sub, .mul, .div, .hlt, .jmp, .jmpf, .jmpb, .jmpe, .eq, .neq,
      .gte, .lte, .lte, .lt]⟩ := by decide

/-! ### Decoding: words written out from R71 and R73 (the notation table of R82) -/

theorem test_decode_load : decodeTableWord 32 0b00000000_00000011_00000001_11110100 =
    some (.load 3 500) := by decide
theorem test_decode_add : decodeTableWord 32 0b00000001_00000000_00000001_00000010 =
    some (.add 0 1 2) := by decide
theorem test_decode_sub : decodeTableWord 32 0b00000010_00011111_00000001_00000010 =
    some (.sub 31 1 2) := by decide
theorem test_decode_mul : decodeTableWord 32 0b00000011_00000100_00000101_00000110 =
    some (.mul 4 5 6) := by decide
theorem test_decode_div : decodeTableWord 32 0b00000100_00000001_00000000_00000010 =
    some (.div 1 0 2) := by decide
theorem test_decode_hlt : decodeTableWord 32 0b00000101_01001101_01011000_01100011 =
    some .hlt := by decide
theorem test_decode_jmp : decodeTableWord 32 0b00000110_00000111_00000000_00000000 =
    some (.jmp 7) := by decide
theorem test_decode_jmpf : decodeTableWord 32 0b00000111_00000001_00000000_00000000 =
    some (.jmpf 1) := by decide
theorem test_decode_jmpb : decodeTableWord 32 0b00001000_00000001_00000000_00000000 =
    some (.jmpb 1) := by decide
theorem test_decode_jmpe : decodeTableWord 32 0b00001001_00000000_11111111_11111111 =
    some (.jmpe 0) := by decide
theorem test_decode_eq : decodeTableWord 32 0b00001010_00000000_00000001_00000000 =
    some (.eq 0 1) := by decide
theorem test_decode_neq : decodeTableWord 32 0b00001011_00000100_00000011_00000000 =
    some (.neq 4 3) := by decide
theorem test_decode_gte : decodeTableWord 32 0b00001100_00000000_00000010_00000000 =
    some (.gte 0 2) := by decide
theorem test_decode_lte : decodeTableWord 32 0b00001101_00000000_00000010_00000000 =
    some (.lte 0 2) := by decide
theorem test_decode_gt : decodeTableWord 32 0b00001110_00000000_00000010_00000000 =
    some (.gt 0 2) := by decide
theorem test_decode_lt : decodeTableWord 32 0b00001111_00000000_00000001_11001000 =
    some (.lt 0 1) := by decide
theorem test_decode_illegal : decodeTableWord 32 0b11001000_00000000_00000000_00000000 =
    some (.illegal 200) := by decide
theorem test_decode_illegal_16 : decodeTableWord 32 0b00010000_00000000_00000000_00000000 =
    some (.illegal 16) := by decide
theorem test_decode_rejects_register_32 :
    decodeTableWord 32 0b00000001_00000000_00100000_00000010 = none := by decide
/-- The order of R209: a bad byte that is present comes before a missing one. -/
theorem test_decode_bad_before_missing : (decode [4, 40, 1]).toOption = none ∧
    (match decode [4, 40, 1] with | .error r => r | .ok _ => .noOpcodeByte) = .registerOutOfRange ∧
    (match decode [4, 0, 1] with | .error r => r | .ok _ => .noOpcodeByte) = .truncatedInstruction := by
  decide
/-- The listing of P1 at offset 8: `04 00 01 02`. -/
theorem test_encode_div : encode (.div 0 1 2) = [4, 0, 1, 2] := by decide

/-! ### One cycle of each instruction -/

/-- V-L3: zero extension, not sign extension. -/
theorem test_load_is_zero_extended :
    after (start [0, 5, 128, 0] [(5, -1)]) (fun t => ((t.reg 5).toInt, t.pc.toNat, latch t)) =
      some (32768, 4, 0, 0) := by decide
/-- V-L12: the register byte is checked before the missing immediate. -/
theorem test_load_bad_register_first :
    after (start [0, 40] []) (fun t => (t.pc.toNat, latch t)) = some (0, 1, 4) := by decide
/-- V-A1. -/
theorem test_add_wraps :
    after (start [1, 0, 1, 2] [(0, imax), (1, 1)]) (fun t => ((t.reg 2).toInt, t.pc.toNat)) =
      some (imin, 4) := by decide
/-- V-A3. -/
theorem test_add_one_register_thrice :
    after (start [1, 0, 0, 0] [(0, 21)]) (fun t => (t.reg 0).toInt) = some 42 := by decide
/-- V-A5, with the correction of conflict C4. -/
theorem test_sub_first_minus_second :
    after (start [2, 0, 1, 2] [(0, 5), (1, 10)]) (fun t => (t.reg 2).toInt) = some (-5) := by decide
/-- V-A11. -/
theorem test_mul_wraps :
    after (start [3, 0, 1, 2] [(0, 46341), (1, 46341)]) (fun t => (t.reg 2).toInt) =
      some (-2147479015) := by decide
/-- V-D3. -/
theorem test_div_truncates :
    after (start [4, 0, 1, 2] [(0, -7), (1, 2)]) (fun t => ((t.reg 2).toInt, t.rem.toInt)) =
      some (-3, -1) := by decide
/-- V-D15: nothing but `status` changes. -/
theorem test_div_by_zero :
    after { start [4, 0, 1, 2] [(0, 5), (2, 1234)] with rem := 99 }
      (fun t => ((t.reg 2).toInt, t.rem.toInt, t.pc.toNat, latch t)) =
      some (1234, 99, 0, 1, 5) := by decide
/-- V-J10: absolute, not relative. -/
theorem test_jmp_is_absolute :
    after { start [0, 0, 0, 0, 6, 3, 0, 0] [(3, 4)] with pc := 4 } (fun t => t.pc.toNat) =
      some 4 := by decide
/-- V-J4. -/
theorem test_jmp_negative :
    after (start [6, 0, 0, 0] [(0, -1)]) (fun t => (t.pc.toNat, latch t)) = some (0, 1, 7) := by decide
/-- V-J15. -/
theorem test_jmpf_far :
    after (start [7, 0, 0, 0] [(0, imax)]) (fun t => t.pc.toNat) = some 2147483649 := by decide
/-- V-J18. -/
theorem test_jmpf_below_zero :
    after { start [0, 0, 0, 0, 7, 1, 0, 0] [(1, -7)] with pc := 4 } (fun t => (t.pc.toNat, latch t)) =
      some (4, 1, 7) := by decide
/-- V-J21. -/
theorem test_jmpb_to_zero :
    after { start [0, 0, 0, 10, 8, 1, 0, 0] [(1, 6)] with pc := 4 } (fun t => t.pc.toNat) =
      some 0 := by decide
/-- R161: "JMPB reaches `t = 2^32` in the single case", a program of the greatest length that ends with
the JMPB's register byte. -/
theorem test_jmpb_past_the_top :
    after { start [] [(0, imin)] with
        pc := 2147483646, program := ⟨2147483648, [(2147483646, 8)]⟩ }
      (fun t => (t.pc.toNat, latch t)) = some (2147483646, 1, 7) := by decide
/-- V-J35: the padding need not exist. -/
theorem test_jmpe_taken :
    after { start [9, 0] [(0, 12)] with eq := true } (fun t => (t.pc.toNat, t.eq)) =
      some (12, true) := by decide
/-- V-J33: with the flag clear the value is not range-checked. -/
theorem test_jmpe_not_taken :
    after (start [9, 0, 0, 0] [(0, -1)]) (fun t => (t.pc.toNat, latch t)) = some (4, 0, 0) := by decide
/-- V-C3: the padding byte need not exist. -/
theorem test_eq_without_padding :
    after (start [10, 0, 1] [(0, 10), (1, 10)]) (fun t => (t.eq, t.pc.toNat)) =
      some (true, 4) := by decide
/-- V-C8. -/
theorem test_neq_clears :
    after { start [11, 4, 4, 0] [(4, -9)] with eq := true } (fun t => (t.eq, t.pc.toNat)) =
      some (false, 4) := by decide
/-- V-C11. -/
theorem test_gte_signed :
    after { start [12, 0, 1, 0] [(0, -1), (1, 1)] with eq := true } (fun t => t.eq) =
      some false := by decide
/-- V-C13. -/
theorem test_lte_signed :
    after { start [13, 0, 1, 0] [(0, imax), (1, imin)] with eq := true } (fun t => t.eq) =
      some false := by decide
/-- V-C15. -/
theorem test_gt_signed :
    after (start [14, 0, 1, 0] [(0, 1), (1, -1)]) (fun t => t.eq) = some true := by decide
/-- V-C18. -/
theorem test_lt_equal :
    after { start [15, 0, 1, 0] [(0, 3), (1, 3)] with eq := true } (fun t => t.eq) =
      some false := by decide
/-- V-S3: nothing but `pc` and `status` changes. -/
theorem test_hlt :
    nextState (step { start [5, 77, 88, 99] [(0, 4)] with eq := true, rem := 3 }) =
      some { start [5, 77, 88, 99] [(0, 4)] with
        eq := true, rem := 3, pc := 1, status := ⟨.stopped, .halted⟩ } := by decide
/-- V-S8: a data byte decoded as an opcode. -/
theorem test_illegal :
    after { start [0, 0, 1, 244] [] with pc := 3 } (fun t => (t.pc.toNat, latch t)) =
      some (4, 1, 2) := by decide
/-- V-S12. -/
theorem test_program_end :
    after { start [5, 0, 0, 0] [] with pc := 4000000000 } (fun t => (t.pc.toNat, latch t)) =
      some (4000000000, 1, 3) := by decide
/-- Sequence Q1, cycle 2: padding decoded after HLT is a LOAD, and the FSM is RUNNING again. -/
theorem test_step_after_hlt :
    after { start [5, 0, 0, 0, 1, 0, 0, 0] [] with pc := 1, status := ⟨.stopped, .halted⟩ }
      (fun t => ((t.reg 0).toInt, t.pc.toNat, latch t)) = some (1, 5, 0, 0) := by decide
/-- Sequence Q5: `run()` on the source's ADD example returns with ProgramEnd. -/
theorem test_run_add :
    ((start [1, 0, 1, 2] [(0, 5), (1, 10)]).run 2).map
      (fun t => ((t.reg 2).toInt, t.pc.toNat, latch t)) = some (15, 4, 1, 3) := by decide
/-- The first cycle after reset, with no program: S2, V-S9. -/
theorem test_reset_stops_at_once :
    nextState (step State.reset) =
      some { State.reset with status := ⟨.stopped, .programEnd⟩ } := by decide
/-- A table word placed at `pc` runs at the very next step: `LOAD r3, #500`. -/
theorem test_with_fetch_word :
    after (State.reset.withFetchWord 32 0x000301F4) (fun t => ((t.reg 3).toInt, t.pc.toNat)) =
      some (500, 4) := by decide
theorem test_reset_inv : State.reset.Inv := by decide

/-! ### Witnesses: the hypotheses of each statement can be met, at the boundaries of its clauses -/

theorem witness_DecodeOfEncode : opcodeMap.Valid ∧ (Instr.illegal 16).wellFormed = true := by decide
theorem witness_EncodeOfDecode :
    opcodeMap.Valid ∧ decodeWith opcodeMap [15, 31, 0, 255] = .ok (.lt 31 0) := ⟨by decide, rfl⟩
theorem witness_PaddingIsIgnored :
    opcodeMap.Valid ∧ decodeWith opcodeMap [9, 31, 1, 2] = .ok (.jmpe 31) ∧
      ([9, 31] : List Byte).take (Instr.jmpe 31).bytesFetched =
        ([9, 31, 1, 2] : List Byte).take (Instr.jmpe 31).bytesFetched := ⟨by decide, rfl, rfl⟩
theorem witness_OperandFetchHelpers :
    32 ≤ (32 : Byte).toNat ∧ (31 : Byte).toNat = (31 : RegIdx).val ∧
      ([7] : List Byte).length < 2 := by decide

/-- Operand faults: each operand byte missing, and each the first bad value 32. -/
theorem witness_OperandFaults_missing :
    ((start [4] []).Fetches 4 ∧ (start [4] []).program.size ≤ (start [4] []).pc.toNat + 1) ∧
    ((start [4, 31] []).Fetches 4 ∧ (start [4, 31] []).byteAt 1 = some (31 : RegIdx).val ∧
      (start [4, 31] []).program.size ≤ (start [4, 31] []).pc.toNat + 2) ∧
    ((start [4, 0, 31] []).Fetches 4 ∧ (start [4, 0, 31] []).byteAt 1 = some (0 : RegIdx).val ∧
      (start [4, 0, 31] []).byteAt 2 = some (31 : RegIdx).val ∧
      (start [4, 0, 31] []).program.size ≤ (start [4, 0, 31] []).pc.toNat + 3) := by decide
theorem witness_OperandFaults_bad :
    ((start [4, 32] []).Fetches 4 ∧ (start [4, 32] []).byteAt 1 = some 32) ∧
    ((start [4, 31, 32] []).Fetches 4 ∧ (start [4, 31, 32] []).byteAt 1 = some (31 : RegIdx).val ∧
      (start [4, 31, 32] []).byteAt 2 = some 32) ∧
    ((start [4, 0, 0, 255] []).Fetches 4 ∧ (start [4, 0, 0, 255] []).byteAt 3 = some 255) := by decide
/-- The opcode byte of every statement about a cycle can be fetched. -/
theorem witness_Fetches_every_opcode :
    ∀ op ∈ ([0, 1, 2, 3, 4, 5, 6, 7, 8, 9, 10, 11, 12, 13, 14, 15, 16, 255] : List Nat),
      (start [BitVec.ofNat 8 op] []).Fetches op := by decide
theorem witness_LoadCycle :
    ((start [0, 31, 1] []).Fetches 0 ∧ (start [0, 31, 1] []).byteAt 1 = some (31 : RegIdx).val ∧
      (start [0, 31, 1] []).program.size ≤ (start [0, 31, 1] []).pc.toNat + 3) ∧
    ((start [0, 31, 255, 0] []).Fetches 0 ∧
      (start [0, 31, 255, 0] []).byteAt 1 = some (31 : RegIdx).val ∧
      (start [0, 31, 255, 0] []).byteAt 2 = some 255 ∧
      (start [0, 31, 255, 0] []).byteAt 3 = some 0) := by decide
theorem witness_AddCycle :
    (start [1, 0, 31, 0] []).Fetches 1 ∧ (start [1, 0, 31, 0] []).byteAt 1 = some (0 : RegIdx).val ∧
      (start [1, 0, 31, 0] []).byteAt 2 = some (31 : RegIdx).val ∧
      (start [1, 0, 31, 0] []).byteAt 3 = some (0 : RegIdx).val := by decide
theorem witness_SubCycle :
    (start [2, 31, 31, 31] []).Fetches 2 ∧
      (start [2, 31, 31, 31] []).byteAt 1 = some (31 : RegIdx).val ∧
      (start [2, 31, 31, 31] []).byteAt 2 = some (31 : RegIdx).val ∧
      (start [2, 31, 31, 31] []).byteAt 3 = some (31 : RegIdx).val := by decide
theorem witness_MulCycle :
    (start [3, 0, 1, 2] []).Fetches 3 ∧ (start [3, 0, 1, 2] []).byteAt 1 = some (0 : RegIdx).val ∧
      (start [3, 0, 1, 2] []).byteAt 2 = some (1 : RegIdx).val ∧
      (start [3, 0, 1, 2] []).byteAt 3 = some (2 : RegIdx).val := by decide
/-- Both clauses of DIV: the divisor register holds 0, and -1. -/
theorem witness_DivCycle :
    (start [4, 0, 1, 2] []).Fetches 4 ∧ (start [4, 0, 1, 2] []).byteAt 1 = some (0 : RegIdx).val ∧
      (start [4, 0, 1, 2] []).byteAt 2 = some (1 : RegIdx).val ∧
      (start [4, 0, 1, 2] []).byteAt 3 = some (2 : RegIdx).val ∧
      ((start [4, 0, 1, 2] []).x.get 1).toInt = 0 ∧
      ((start [4, 0, 1, 2] [(1, -1)]).x.get 1).toInt ≠ 0 := by decide
/-- Both clauses of JMP meet at the register values 0 and -1. -/
theorem witness_JmpCycle :
    (start [6, 0] []).Fetches 6 ∧ (start [6, 0] []).byteAt 1 = some (0 : RegIdx).val ∧
      0 ≤ ((start [6, 0] []).x.get 0).toInt ∧
      ((start [6, 0] [(0, -1)]).x.get 0).toInt < 0 := by decide
/-- Both clauses of JMPF meet at the targets 0 and -1 (V-J13, V-J14). -/
theorem witness_JmpfCycle :
    (start [7, 0] [(0, -2)]).Fetches 7 ∧ (start [7, 0] [(0, -2)]).byteAt 1 = some (0 : RegIdx).val ∧
      0 + 2 + ((start [7, 0] [(0, -2)]).x.get 0).toInt = 0 ∧
      0 + 2 + ((start [7, 0] [(0, -3)]).x.get 0).toInt < 0 := by decide
/-- The clauses of JMPB meet at the targets 0 and -1, and at 2^32 - 1 and 2^32 in a program of the
greatest length. -/
theorem witness_JmpbCycle :
    ((start [8, 0] [(0, 2)]).Fetches 8 ∧ (start [8, 0] [(0, 2)]).byteAt 1 = some (0 : RegIdx).val ∧
      0 + 2 - ((start [8, 0] [(0, 2)]).x.get 0).toInt = 0 ∧
      0 + 2 - ((start [8, 0] [(0, 3)]).x.get 0).toInt < 0) ∧
    (let s : State := { start [] [(0, imin)] with
        pc := 2147483646, program := ⟨2147483648, [(2147483646, 8)]⟩ }
     s.Fetches 8 ∧ s.byteAt 1 = some (0 : RegIdx).val ∧
      (s.pc.toNat : Int) + 2 - (s.x.get 0).toInt = 4294967296 ∧
      (s.pc.toNat : Int) + 2 - ((start [] [(0, imin + 1)]).x.get 0).toInt = 4294967295) := by decide
theorem witness_JmpeCycle :
    (start [9, 31] []).Fetches 9 ∧ (start [9, 31] []).byteAt 1 = some (31 : RegIdx).val ∧
      (start [9, 31] []).eq = false ∧ ({ start [9, 31] [] with eq := true } : State).eq = true ∧
      0 ≤ ((start [9, 31] []).x.get 31).toInt ∧
      ((start [9, 31] [(31, -1)]).x.get 31).toInt < 0 := by decide
theorem witness_ComparisonCycles :
    ∀ op ∈ ([10, 11, 12, 13, 14, 15] : List Nat),
      (start [BitVec.ofNat 8 op, 0, 31] []).Fetches op ∧
      (start [BitVec.ofNat 8 op, 0, 31] []).byteAt 1 = some (0 : RegIdx).val ∧
      (start [BitVec.ofNat 8 op, 0, 31] []).byteAt 2 = some (31 : RegIdx).val := by decide
theorem witness_DivResult :
    (start [] [(1, 1)]).x.get 1 ≠ 0 ∧ (start [] []).x.get 1 = 0 := by decide
/-- Every jump's target clause, at the boundary target 0 and, for JMPB, at 2^32 - 1. -/
theorem witness_JumpResults :
    (((0 : Addr).toNat : Int) = ((start [] []).x.get 0).toInt) ∧
    (((0 : Addr).toNat : Int) = ((start [] []).pc.toNat : Int) + 2 + ((start [] [(0, -2)]).x.get 0).toInt) ∧
    (((0 : Addr).toNat : Int) = ((start [] []).pc.toNat : Int) + 2 - ((start [] [(0, 2)]).x.get 0).toInt) ∧
    (((4294967295 : Addr).toNat : Int) =
      (((start [] []).presetPc 2147483645).pc.toNat : Int) + 2 - ((start [] [(0, imin)]).x.get 0).toInt) ∧
    ((start [] []).presetEq true).eq = true ∧ (start [] []).eq = false := by decide
/-- A step with a next state: the hypothesis of the statements about every cycle. -/
theorem witness_step_has_a_next_state (s : State) (h : s.program.size ≤ Config.progMaxLen) :
    ∃ t, step s = .next t := by
  rcases step_cases h with ⟨_, he⟩ | ⟨_, r, _, he⟩ | ⟨_, i, _, he⟩
  · exact ⟨_, he⟩
  · cases r <;> exact ⟨_, he⟩
  · rcases exec_cases i s with ⟨_, _, _, _, h'⟩ | ⟨_, h'⟩ | ⟨_, h'⟩ | ⟨_, h'⟩ | ⟨_, h'⟩ <;>
      exact ⟨_, he.trans h'⟩
/-- Each outcome a statement names as a hypothesis is the outcome of some cycle. -/
theorem witness_every_outcome :
    after (start [0, 0, 0, 0] []) (fun t => t.status.cause) = some .continued ∧
    after (start [5] []) (fun t => t.status.cause) = some .halted ∧
    after (start [255] []) (fun t => t.status.cause) = some .illegalOpcode ∧
    after (start [] []) (fun t => t.status.cause) = some .programEnd ∧
    after (start [6, 32] []) (fun t => t.status.cause) = some (.fault .registerOutOfRange) ∧
    after (start [4, 0, 0, 0] []) (fun t => t.status.cause) = some (.fault .divisionByZero) ∧
    after (start [6] []) (fun t => t.status.cause) = some (.fault .truncatedInstruction) ∧
    after (start [6, 0] [(0, -1)]) (fun t => t.status.cause) = some (.fault .jumpOutOfRange) := by
  decide
theorem witness_InstructionFrame :
    nextState (exec (.add 0 1 2) State.reset) =
        some ((State.reset.commit { reg := some (2, 0), npc := 4 }).endCycle .continued) ∧
      destination (.add 0 1 2) ≠ some 3 ∧ isComparison (.add 0 1 2) = false := by decide
theorem witness_RemIsWrittenByDivAndNeverRead :
    (start [0, 0, 0, 0] []).byteAt 0 ≠ some 4 ∧ (start [4, 0, 0, 0] []).byteAt 0 = some 4 := by decide
theorem witness_EqIsWrittenByComparisonsAndReadByJmpe :
    (start [9, 0] []).byteAt 0 = some 9 ∧ (start [16] []).byteAt 0 = some 16 ∧
      (start [16] []).byteAt 0 ≠ some 9 := by decide
theorem witness_StepRunsTheDecodedInstruction :
    (start [6, 31] []).program.size ≤ 2 ^ 31 ∧
      (start [6, 31] []).pc.toNat < (start [6, 31] []).program.size ∧
      decode (start [6, 31] []).fetchBytes = .ok (.jmp 31) := ⟨by decide, by decide, rfl⟩
theorem witness_ProgramEndStopsCleanly :
    ((start [] []).presetPc 0).program.size ≤ 2 ^ 31 ∧
      (start [] []).program.size ≤ (start [] []).pc.toNat ∧
      (start [5] []).program.size ≤ ((start [5] []).presetPc 1).pc.toNat := by decide
theorem witness_EveryCycleHasANextState :
    ({ State.reset with program := ⟨2147483648, []⟩ } : State).program.size ≤ 2 ^ 31 ∧
      2 ^ 31 < ({ State.reset with program := ⟨2147483649, []⟩ } : State).program.size := by decide
theorem witness_FailureLeavesTheRegisters :
    after (start [16] []) (fun t => t.status.cause.clean) = some false := by decide
theorem witness_SteppingOnExecutesPadding :
    ((start [5] []).Fetches 5 ∧ (start [5] []).program.size ≤ (start [5] []).pc.toNat + 1) ∧
    ((start [255, 0, 0, 0] []).Fetches 255 ∧ (start [255, 0, 0, 0] []).byteAt 1 = some 0 ∧
      (start [255, 0, 0, 0] []).byteAt 2 = some 0 ∧
      (start [255, 0, 0, 0] []).program.size ≤ (start [255, 0, 0, 0] []).pc.toNat + 4) ∧
    ((start [5, 0, 0, 0, 255] []).Fetches 5 ∧ (start [5, 0, 0, 0, 255] []).byteAt 1 = some 0 ∧
      (start [5, 0, 0, 0, 255] []).byteAt 2 = some 0 ∧
      (start [5, 0, 0, 0, 255] []).byteAt 3 = some 0 ∧
      (start [5, 0, 0, 0, 255] []).byteAt 4 = some 255) := by decide
/-- The last LOAD of a program of the greatest length falls through to 2^31. -/
theorem witness_SequentialAdvanceNeverWraps :
    let s : State := { State.reset with pc := 2147483644, program := ⟨2147483648, []⟩ }
    decode s.fetchBytes = .ok (.load 0 0) ∧ fallsThrough (.load 0 0) = true ∧
      after s (fun t => (t.status.cause, t.pc.toNat)) = some (.continued, 2147483648) :=
  ⟨rfl, rfl, by decide⟩
/-- The clause of JMPE with the flag clear, at the last place a JMPE fits: it falls through past 2^31. -/
theorem witness_SequentialAdvanceNeverWraps_jmpe :
    let s : State := { State.reset with
      pc := 2147483646, program := ⟨2147483648, [(2147483646, 9)]⟩ }
    decode s.fetchBytes = .ok (.jmpe 0) ∧ s.eq = false ∧
      after s (fun t => t.pc.toNat) = some 2147483650 :=
  ⟨rfl, rfl, by decide⟩
theorem witness_JumpOutOfRangeExactly :
    let s : State := { start [] [(0, imin)] with
      pc := 2147483646, program := ⟨2147483648, [(2147483646, 8)]⟩ }
    s.program.size ≤ 2 ^ 31 ∧ s.pc.toNat + 2 ≤ s.program.size := by decide
theorem witness_DivisionTowardZero : (-1 : Int) ≠ 0 := by decide
theorem witness_DivisionIdentity :
    (nextState (exec (.div 0 1 2) (start [] [(0, imin), (1, -1)]))).map
      (fun t => (t.status.cause, (t.reg 2).toInt, t.rem.toInt)) = some (.continued, imin, 0) := by decide
theorem witness_StepKeepsInv : (start [4, 0, 1, 2] [(1, 3)]).Inv := by decide
/-- The host operation with the longest way to go: a run of the source's ADD example (Q5). -/
theorem witness_HostKeepsInv :
    (start [1, 0, 1, 2] []).Inv ∧
      ((start [1, 0, 1, 2] []).hostStep (.run 2)).map latch = some (1, 3) := by decide
theorem witness_HostSequencesKeepInv :
    State.reset.Inv ∧
    (State.reset.hostSteps [.assign [5, 0, 0, 0], .presetReg 3 7, .presetPc 4, .presetEq true,
      .presetRem 9, .runOnce, .presetPc 0, .run 1]).map (fun t => (t.pc.toNat, latch t)) =
      some (1, 1, 1) := by decide
theorem witness_AssignReplacesTheProgram :
    ([] : List Byte).length ≤ 2 ^ 31 ∧ 2 ^ 31 < (List.replicate 2147483649 (0 : Byte)).length := by
  rw [List.length_replicate]
  decide
theorem witness_PresetsTouchOneElement : (31 : RegIdx) ≠ 0 := by decide
/-- Both directions of RunEndsAtTheFirstStop meet in one run: its path of two cycles, and what it
returns (sequence Q5). -/
theorem witness_RunEndsAtTheFirstStop :
    let s := start [1, 0, 1, 2] []
    let u : State := { s with pc := 4 }
    let t : State := { u with status := ⟨.stopped, .programEnd⟩ }
    s.run 2 = some t ∧ [({ s with status := .ran } : State), u].length ≤ 2 ∧
      nextState (step { s with status := .ran }) = some u ∧ u.status.cause = .continued ∧
      nextState (step u) = some t ∧ t.status.run = .stopped ∧ t.status.cause ≠ .continued := by decide
theorem witness_RunDoesNotDependOnFuel :
    ((start [0, 0, 0, 1, 5] []).run 2).map (fun t => (t.pc.toNat, latch t)) = some (5, 1, 1) ∧
      (2 : Nat) ≤ 3 := by decide

end Sys2Proof.Tests
end

section
/-! PROOFS. The statements of spec/10_state.md: the invariant, the frame of an instruction, and who
writes and reads `rem` and `eq`. -/

namespace Sys2Proof.Machine

variable {s t : State}

/-! ### The opcode byte of a decoded instruction -/

/-- Bytes that decode to an instruction of an operation begin at `pc` with that operation's code. -/
theorem byteAt_zero_of_decode {i : Instr} {o : Operation} (h : decode s.fetchBytes = .ok i)
    (ht : i.tag = .op o) : s.byteAt 0 = some (opcodeMap.code o).toNat := by
  have hget : s.fetchBytes[0]? = s.program.byte? (s.pc.toNat + 0) :=
    getElem?_bytesFrom Config.insnBytes s.pc.toNat 0 (by decide)
  cases hf : s.fetchBytes with
  | nil => simp [hf, decode, decodeWith] at h
  | cons b bs =>
    rw [hf] at h hget
    have hb : b = opcodeMap.code o :=
      eq_code_of_decodeOpcode opcodeMap_valid ((tag_of_decodeWith h).symm.trans ht)
    rw [State.byteAt, ← hget, hb]
    rfl

/-- The six comparisons have the opcode bytes 10 to 15 (R73). -/
theorem byteAt_zero_of_isComparison {i : Instr} (h : decode s.fetchBytes = .ok i)
    (hc : isComparison i = true) : ∃ op, s.byteAt 0 = some op ∧ 10 ≤ op ∧ op ≤ 15 := by
  have found {o : Operation} (ht : i.tag = .op o)
      (hr : 10 ≤ (opcodeMap.code o).toNat ∧ (opcodeMap.code o).toNat ≤ 15) :
      ∃ op, s.byteAt 0 = some op ∧ 10 ≤ op ∧ op ≤ 15 := ⟨_, byteAt_zero_of_decode h ht, hr⟩
  cases i with
  | eq | neq | gte | lte | gt | lt => exact found rfl (by decide)
  | load | add | sub | mul | div | hlt | jmp | jmpf | jmpb | jmpe | illegal => cases hc

/-! ### The state after a cycle -/

/-- The bytes that give no instruction end the cycle with the same stop in every state, and that stop
is never Continue. -/
theorem takeReject_stops (r : Reject) :
    ∃ o ≠ CycleOutcome.continued, ∀ s : State, s.takeReject r = .next (s.endCycle o) := by
  cases r with
  | noOpcodeByte => exact ⟨.programEnd, by simp, fun _ => rfl⟩
  | truncatedInstruction => exact ⟨.fault .truncatedInstruction, by simp, fun _ => rfl⟩
  | registerOutOfRange => exact ⟨.fault .registerOutOfRange, by simp, fun _ => rfl⟩

/-- The state after an instruction: the writes of its row with Continue, or a stop that has written at
most `pc` and `status` (R110). -/
theorem exec_next_cases {i : Instr} (h : exec i s = .next t) :
    (∃ w, StagedBy s i w ∧ t = (s.commit w).endCycle .continued) ∨
    ∃ a, ∃ o ≠ CycleOutcome.continued, t = (s.commit { npc := a }).endCycle o := by
  rcases exec_cases i s with ⟨w, hw, -, -, he⟩ | ⟨-, he⟩ | ⟨-, he⟩ | ⟨-, he⟩ | ⟨-, he⟩ <;>
    rw [he] at h <;> cases h
  · exact .inl ⟨w, hw, rfl⟩
  · exact .inr ⟨s.seq 1, .halted, by simp, rfl⟩
  · exact .inr ⟨s.seq 1, .illegalOpcode, by simp, rfl⟩
  · exact .inr ⟨s.pc, .fault .divisionByZero, by simp, rfl⟩
  · exact .inr ⟨s.pc, .fault .jumpOutOfRange, by simp, rfl⟩

/-- The state after a cycle: the writes of its instruction's row with Continue, or a stop that has
written at most `pc` and `status` (R110, R111). -/
theorem step_next_cases (h : step s = .next t) :
    (∃ i w, decode s.fetchBytes = .ok i ∧ StagedBy s i w ∧
      t = (s.commit w).endCycle .continued) ∨
    ∃ a, ∃ o ≠ CycleOutcome.continued, t = (s.commit { npc := a }).endCycle o := by
  rcases step_cases (size_le_of_step h) with ⟨-, he⟩ | ⟨-, r, -, he⟩ | ⟨-, i, hi, he⟩ <;> rw [he] at h
  · cases h
    exact .inr ⟨s.pc, .programEnd, by simp, rfl⟩
  · obtain ⟨o, ho, hr⟩ := takeReject_stops r
    rw [hr] at h
    cases h
    exact .inr ⟨s.pc, o, ho, rfl⟩
  · rcases exec_next_cases h with ⟨w, hw, ht⟩ | hstop
    · exact .inl ⟨i, w, hi, hw, ht⟩
    · exact .inr hstop

/-- Every cycle is a commit of some writes, then the latching of an outcome (R110, R111). -/
theorem step_next_eq_endCycle (h : step s = .next t) : ∃ w o, t = (s.commit w).endCycle o := by
  rcases step_next_cases h with ⟨-, w, -, -, ht⟩ | ⟨a, o, -, ht⟩
  · exact ⟨w, .continued, ht⟩
  · exact ⟨{ npc := a }, o, ht⟩

/-- No cycle touches the program store (R50). -/
theorem step_program (h : step s = .next t) : t.program = s.program := by
  obtain ⟨w, o, rfl⟩ := step_next_eq_endCycle h
  rfl

/-! ### What a cycle does not read -/

/-- From `s` and from `s'` an operation commits the same writes and ends with the same outcome. -/
def SameEffect (s s' : State) (a a' : Host.Outcome State Fault Refusal) : Prop :=
  ∃ w o, a = .next ((s.commit w).endCycle o) ∧ a' = .next ((s'.commit w).endCycle o)

theorem completes_sameEffect (s s' : State) (w : Staged) :
    SameEffect s s' (s.completes w) (s'.completes w) := ⟨w, .continued, rfl, rfl⟩

theorem stops_sameEffect (s s' : State) (a : Addr) (o : CycleOutcome) :
    SameEffect s s' (s.stops a o) (s'.stops a o) := ⟨{ npc := a }, o, rfl, rfl⟩

/-- A stop that commits nothing leaves `pc` where it was, so it is alike from states with one `pc`. -/
theorem endCycle_sameEffect {s s' : State} (hpc : s'.pc = s.pc) (o : CycleOutcome) :
    SameEffect s s' (.next (s.endCycle o)) (.next (s'.endCycle o)) :=
  ⟨{ npc := s.pc }, o, rfl, hpc ▸ rfl⟩

/-- A jump reads nothing of the state but `pc` (R161). -/
theorem jump_sameEffect {s s' : State} (hpc : s'.pc = s.pc) (k : JumpKind) (n : Int) :
    SameEffect s s' (s.jump k n) (s'.jump k n) := by
  have hbase : s'.jumpBase = s.jumpBase := by rw [State.jumpBase, State.jumpBase, hpc]
  rw [State.jump, State.jump, hbase]
  cases checkTarget (k.target s.jumpBase n) with
  | some a => exact completes_sameEffect s s' { npc := a }
  | none => exact endCycle_sameEffect hpc (.fault .jumpOutOfRange)

/-- An instruction reads only `x` and `pc`, and JMPE alone `eq` as well: `rem` and `status` influence
nothing (R30, R32, R112). -/
theorem exec_sameEffect (i : Instr) {s s' : State} (hx : s'.x = s.x) (hpc : s'.pc = s.pc)
    (heq : (∃ r, i = .jmpe r) → s'.eq = s.eq) : SameEffect s s' (exec i s) (exec i s') := by
  have hsrc (r : RegIdx) : s'.source r = s.source r := by
    rw [State.source, State.source, State.reg, State.reg, hx]
  have hseq (n : Nat) : s'.seq n = s.seq n := by rw [State.seq, State.seq, hpc]
  cases i with
  | load d imm =>
    simp only [exec, execLoad, hseq]
    exact completes_sameEffect s s' _
  | add | sub | mul =>
    simp only [exec, execAdd, execSub, execMul, State.arith, hsrc, hseq]
    exact completes_sameEffect s s' _
  | div a b d =>
    simp only [exec, execDiv, hsrc, hseq]
    split
    · exact endCycle_sameEffect hpc (.fault .divisionByZero)
    · exact completes_sameEffect s s' _
  | hlt | illegal =>
    simp only [exec, execHlt, execIllegal, hseq]
    exact stops_sameEffect s s' _ _
  | jmp | jmpf | jmpb =>
    simp only [exec, execJmp, execJmpf, execJmpb, hsrc]
    exact jump_sameEffect hpc _ _
  | jmpe r =>
    simp only [exec, execJmpe, hsrc, hseq, heq ⟨r, rfl⟩]
    split
    · exact jump_sameEffect hpc .abs _
    · exact completes_sameEffect s s' _
  | eq | neq | gte | lte | gt | lt =>
    simp only [exec, execEq, execNeq, execGte, execLte, execGt, execLt, State.compare, hsrc, hseq]
    exact completes_sameEffect s s' _

/-- A cycle is a function of `x`, `pc` and the program, and of `eq` where it fetches the byte of JMPE:
`rem` and `status` influence nothing (R30, R32, R112). -/
theorem step_sameEffect {s s' : State} (hsize : s.program.size ≤ Config.progMaxLen)
    (hx : s'.x = s.x) (hpc : s'.pc = s.pc) (hprog : s'.program = s.program)
    (heq : s.byteAt 0 = some 9 → s'.eq = s.eq) : SameEffect s s' (step s) (step s') := by
  have hfetch : s'.fetchBytes = s.fetchBytes := by
    rw [State.fetchBytes, State.fetchBytes, hpc, hprog]
  have hlong : s'.programTooLong = s.programTooLong := by
    rw [State.programTooLong, State.programTooLong, hprog]
  have hend : s'.atProgramEnd = s.atProgramEnd := by
    rw [State.atProgramEnd, State.atProgramEnd, hpc, hprog]
  have hshort : s.programTooLong = false := by simp [State.programTooLong, hsize]
  simp only [step, hfetch, hlong, hend, hshort, Bool.false_eq_true, if_false]
  split
  · exact endCycle_sameEffect hpc .programEnd
  · cases hd : decode s.fetchBytes with
    | error r =>
      obtain ⟨o, -, hr⟩ := takeReject_stops r
      simp only [hr]
      exact endCycle_sameEffect hpc o
    | ok i =>
      refine exec_sameEffect i hx hpc fun ⟨r, hi⟩ => heq ?_
      subst hi
      exact byteAt_zero_of_decode hd rfl

end Sys2Proof.Machine

namespace Sys2Proof.Proofs

open Sys2Proof.Machine

/-! ### After any cycle -/

/-- Settles O34: whatever a cycle commits, it ends by latching its outcome. -/
theorem statusAfterACycle : Obligations.StatusAfterACycle := by
  intro s t h
  obtain ⟨w, o, rfl⟩ := step_next_eq_endCycle h
  exact runAfter_running_iff o

/-- Settles O51: the program store is never written, and the end of the cycle makes `status`
consistent whatever it was. -/
theorem stepKeepsInv : Obligations.StepKeepsInv := by
  intro s t hinv h
  obtain ⟨hwf, hsize, -⟩ := hinv
  rw [State.Inv, step_program h]
  exact ⟨hwf, hsize, statusAfterACycle s t h⟩

/-- Settles O25: the writes an instruction stages are those of its row, and a stop stages none. -/
theorem instructionFrame : Obligations.InstructionFrame := by
  intro i s t h
  rcases exec_next_cases h with ⟨w, hw, rfl⟩ | ⟨a, o, -, rfl⟩
  · obtain ⟨hreg, hrem, heq⟩ := commit_frame hw
    exact ⟨hreg, hrem, heq, rfl, fun _ => rfl⟩
  · exact ⟨fun _ _ => rfl, fun _ => rfl, fun _ => rfl, rfl, fun _ => rfl⟩

/-! ### Who writes and reads `rem` and `eq` -/

/-- A cycle that changes `rem` fetched the byte of DIV and completed. -/
theorem fetched_div_of_rem_ne {s t : State} (h : step s = .next t) (hne : t.rem ≠ s.rem) :
    s.byteAt 0 = some 4 ∧ t.status.cause = .continued := by
  rcases step_next_cases h with ⟨i, w, hi, hw, rfl⟩ | ⟨a, o, -, rfl⟩
  · rcases hw.rem with hn | ⟨a, b, d, rfl⟩
    · simp [hn] at hne
    · exact ⟨byteAt_zero_of_decode hi rfl, rfl⟩
  · exact absurd rfl hne

/-- A cycle that changes `eq` fetched the byte of a comparison and completed. -/
theorem fetched_comparison_of_eq_ne {s t : State} (h : step s = .next t) (hne : t.eq ≠ s.eq) :
    (∃ op, s.byteAt 0 = some op ∧ 10 ≤ op ∧ op ≤ 15) ∧ t.status.cause = .continued := by
  rcases step_next_cases h with ⟨i, w, hi, hw, rfl⟩ | ⟨a, o, -, rfl⟩
  · rcases hw.eq with hn | hc
    · simp [hn] at hne
    · exact ⟨byteAt_zero_of_isComparison hi hc, rfl⟩
  · exact absurd rfl hne

/-- Settles O28: only a completed DIV stages `rem`, and no writes or outcome depend on it. -/
theorem remIsWrittenByDivAndNeverRead : Obligations.RemIsWrittenByDivAndNeverRead := by
  intro s t v h
  constructor
  · intro hor
    by_contra hne
    obtain ⟨hbyte, hcause⟩ := fetched_div_of_rem_ne h hne
    exact hor.elim (· hbyte) (· hcause)
  · obtain ⟨w, o, hs, hs'⟩ := step_sameEffect (s' := { s with rem := v }) (size_le_of_step h)
      rfl rfl rfl fun _ => rfl
    cases h.symm.trans hs
    exact ⟨_, hs', rfl, rfl, rfl, rfl, rfl⟩

/-- Settles O29: only a completed comparison stages `eq`, and outside JMPE no writes or outcome depend
on it. -/
theorem eqIsWrittenByComparisonsAndReadByJmpe :
    Obligations.EqIsWrittenByComparisonsAndReadByJmpe := by
  intro s t v h
  constructor
  · intro hor
    by_contra hne
    obtain ⟨⟨op, hbyte, hlo, hhi⟩, hcause⟩ := fetched_comparison_of_eq_ne h hne
    rcases hor with hno | hstop
    · have := hno op hbyte
      omega
    · exact hstop hcause
  · intro hjmpe
    obtain ⟨w, o, hs, hs'⟩ := step_sameEffect (s' := { s with eq := v }) (size_le_of_step h)
      rfl rfl rfl fun hb => absurd hb hjmpe
    cases h.symm.trans hs
    exact ⟨_, hs', rfl, rfl, rfl, rfl, rfl⟩

/-! ### Reset -/

/-- Settles O49: the values of R38, field by field. -/
theorem resetState : Obligations.ResetState :=
  ⟨reset_reg, rfl, rfl, rfl, rfl, fun a => (byte?_eq_none_iff _ a).2 (Nat.zero_le a), rfl, rfl⟩

/-- Settles O50: the empty program is canonical, and the latch is RUNNING with Continue. -/
theorem resetSatisfiesInv : Obligations.ResetSatisfiesInv :=
  ⟨wf_reset, Nat.zero_le _, iff_of_true rfl rfl⟩

end Sys2Proof.Proofs
end

section
/-! PROOFS. The program store: no cycle writes it, and the host's assignment replaces it whole
(spec/20_memory.md R50, R52, R62). -/

namespace Sys2Proof.Machine

variable {s : State} {bs : List Byte}

/-- A byte sequence the interface allows becomes the program (R52, R62). -/
theorem assignProgram_of_length_le (h : bs.length ≤ Config.progMaxLen) :
    s.assignProgram bs = .next { s with program := Memory.ofBytes bs } :=
  if_neg (Nat.not_lt.2 h)

/-- A byte sequence longer than PROG_MAX_LEN is refused (U7). -/
theorem assignProgram_of_lt_length (h : Config.progMaxLen < bs.length) :
    s.assignProgram bs = .refused .programTooLong :=
  if_pos h

end Sys2Proof.Machine

namespace Sys2Proof.Proofs

open Sys2Proof.Machine

/-- Settles O26: a cycle leaves the program store the same data, so its length and bytes too. -/
theorem programIsNeverWritten : Obligations.ProgramIsNeverWritten := by
  intro s t h
  have hprog : t.program = s.program := step_program h
  exact ⟨congrArg Memory.size hprog, fun a => congrArg (Memory.byte? · a) hprog⟩

/-- Settles O53: the program assigned is the store built from the bytes, which reads them back; the
length test is the only way to be refused. -/
theorem assignReplacesTheProgram : Obligations.AssignReplacesTheProgram := by
  intro s bs
  constructor
  · intro hle
    exact ⟨Memory.ofBytes bs, assignProgram_of_length_le hle, ofBytes_size bs, byte?_ofBytes bs⟩
  · intro hlt
    exact assignProgram_of_lt_length hlt

end Sys2Proof.Proofs
end

section
/-! PROOFS. The statements of spec/30_encoding.md: decoder and encoder are inverse on the bytes an
instruction fetches, the bytes a cycle fetches are the program's, and the cycle of ILLEGAL. -/

namespace Sys2Proof

/-! ### Operands read back from their bytes -/

@[simp] theorem fetchR1_regByte (mk : RegIdx → Instr) (a : RegIdx) (bs : List Byte) :
    fetchR1 mk (regByte a :: bs) = .ok (mk a) := by
  simp [fetchR1]

@[simp] theorem fetchR2_regByte (mk : RegIdx → RegIdx → Instr) (a b : RegIdx) (bs : List Byte) :
    fetchR2 mk (regByte a :: regByte b :: bs) = .ok (mk a b) := by
  simp [fetchR2]

@[simp] theorem fetchR3_regByte (mk : RegIdx → RegIdx → RegIdx → Instr) (a b d : RegIdx)
    (bs : List Byte) : fetchR3 mk (regByte a :: regByte b :: regByte d :: bs) = .ok (mk a b d) := by
  simp [fetchR3]

@[simp] theorem fetchLI_regByte (d : RegIdx) (imm : Imm) (bs : List Byte) :
    fetchLI (regByte d :: immHi imm :: immLo imm :: bs) = .ok (.load d imm) := by
  simp [fetchLI]

/-! ### The opcode byte's share of the decoder -/

theorem decodeWith_code_cons {m : OpcodeMap} (hm : m.Valid) (o : Operation) (bs : List Byte) :
    decodeWith m (m.code o :: bs) = fetchOperands o bs := by
  simp [decodeWith, decodeOpcode_code hm]

theorem decodeWith_illegal_cons {m : OpcodeMap} (hm : m.Valid) {b : Byte} (hb : 16 ≤ b.toNat)
    (bs : List Byte) : decodeWith m (b :: bs) = .ok (.illegal b) := by
  simp [decodeWith, (decodeOpcode_illegal_iff hm b).2 hb]

/-! ### Decoding is reading the fetched bytes of an encoding -/

/-- The encoding of an instruction without its padding: the bytes it fetches (R76). -/
def Instr.fetchedBytes (m : OpcodeMap) (i : Instr) : List Byte :=
  (encodeWith m i).take i.bytesFetched

theorem length_fetchedBytes (m : OpcodeMap) (i : Instr) :
    (i.fetchedBytes m).length = i.bytesFetched := by
  cases i <;> rfl

/-- The fetched bytes of a well-formed instruction decode to it, whatever follows them (R79). -/
theorem decodeWith_fetchedBytes_append {m : OpcodeMap} (hm : m.Valid) {i : Instr}
    (hi : i.wellFormed = true) (rest : List Byte) :
    decodeWith m (i.fetchedBytes m ++ rest) = .ok i := by
  cases i with
  | illegal b => exact decodeWith_illegal_cons hm (of_decide_eq_true hi) rest
  | hlt => exact decodeWith_code_cons hm .hlt rest
  | load d imm =>
    exact (decodeWith_code_cons hm .load _).trans (fetchLI_regByte d imm rest)
  | add a b d | sub a b d | mul a b d | div a b d =>
    exact (decodeWith_code_cons hm _ _).trans (fetchR3_regByte _ a b d rest)
  | jmp a | jmpf a | jmpb a | jmpe a =>
    exact (decodeWith_code_cons hm _ _).trans (fetchR1_regByte _ a rest)
  | eq a b | neq a b | gte a b | lte a b | gt a b | lt a b =>
    exact (decodeWith_code_cons hm _ _).trans (fetchR2_regByte _ a b rest)

/-- An operation whose operands were fetched is well-formed, and its fetched bytes stand first. -/
theorem fetchedBytes_prefix_of_fetchOperands (m : OpcodeMap) {o : Operation} {bs : List Byte}
    {i : Instr} (h : fetchOperands o bs = .ok i) :
    i.wellFormed = true ∧ i.fetchedBytes m <+: m.code o :: bs := by
  cases o <;> simp only [fetchOperands] at h
  case load =>
    obtain ⟨d, hi, lo, rest, rfl, rfl⟩ := fetchLI_ok h
    refine ⟨rfl, rest, ?_⟩
    rw [Instr.fetchedBytes, encodeWith, immHi_append, immLo_append]
    rfl
  case hlt => cases h; exact ⟨rfl, bs, rfl⟩
  case add | sub | mul | div =>
    obtain ⟨a, b, d, rest, rfl, rfl⟩ := fetchR3_ok h
    exact ⟨rfl, rest, rfl⟩
  case jmp | jmpf | jmpb | jmpe =>
    obtain ⟨a, rest, rfl, rfl⟩ := fetchR1_ok h
    exact ⟨rfl, rest, rfl⟩
  case eq | neq | gte | lte | gt | lt =>
    obtain ⟨a, b, rest, rfl, rfl⟩ := fetchR2_ok h
    exact ⟨rfl, rest, rfl⟩

/-- Bytes decode to an instruction exactly when it is well-formed and they begin with its fetched
bytes. -/
theorem decodeWith_eq_ok_iff {m : OpcodeMap} (hm : m.Valid) {bs : List Byte} {i : Instr} :
    decodeWith m bs = .ok i ↔ i.wellFormed = true ∧ i.fetchedBytes m <+: bs := by
  constructor
  · intro h
    cases bs with
    | nil => cases h
    | cons b bs =>
      cases hb : decodeOpcode m b with
      | op o =>
        obtain rfl := eq_code_of_decodeOpcode hm hb
        rw [decodeWith_code_cons hm] at h
        exact fetchedBytes_prefix_of_fetchOperands m h
      | illegal =>
        have hlarge := (decodeOpcode_illegal_iff hm b).1 hb
        rw [decodeWith_illegal_cons hm hlarge] at h
        cases h
        exact ⟨decide_eq_true hlarge, bs, rfl⟩
  · rintro ⟨hi, rest, rfl⟩
    exact decodeWith_fetchedBytes_append hm hi rest

end Sys2Proof

namespace Sys2Proof.Machine

variable {s : State}

/-! ### The fetch of a cycle -/

theorem length_bytesFrom (m : Memory) (n : Nat) :
    ∀ a, (m.bytesFrom a n).length = min n (m.size - a) := by
  induction n with
  | zero => intro a; simp [Memory.bytesFrom]
  | succ n ih =>
    intro a
    cases hb : m.byte? a with
    | none =>
      have hend := (byte?_eq_none_iff m a).1 hb
      rw [bytesFrom_nil hb, List.length_nil]
      omega
    | some b =>
      have hlt := (byte?_isSome_iff m a).1 (Option.isSome_of_eq_some hb)
      rw [bytesFrom_cons hb, List.length_cons, ih]
      omega

/-- Where the program has a byte at `pc`, `pc` is below its end and that byte is the first fetched. -/
theorem fetchBytes_of_byteAt_zero {op : Nat} (h : s.byteAt 0 = some op) :
    s.pc.toNat < s.program.size ∧ ∃ b bs, b.toNat = op ∧ s.fetchBytes = b :: bs := by
  obtain ⟨b, hb, hop⟩ := Option.map_eq_some_iff.1 h
  exact ⟨(byte?_isSome_iff _ _).1 (Option.isSome_of_eq_some hb), b, _, hop, bytesFrom_cons hb⟩

/-! ### What a cycle is, given its bytes -/

/-- Below the program's end a cycle is the instruction its bytes decode to (R101). -/
theorem step_eq_exec {i : Instr} (hsize : s.program.size ≤ Config.progMaxLen)
    (hpc : s.pc.toNat < s.program.size) (hi : decode s.fetchBytes = .ok i) : step s = exec i s := by
  rcases step_cases hsize with ⟨hend, -⟩ | ⟨-, r, hr, -⟩ | ⟨-, j, hj, he⟩
  · omega
  · cases hi.symm.trans hr
  · cases hi.symm.trans hj
    exact he

/-- What `status` holds when a cycle begins does not matter to it (R112, R115). -/
theorem step_setStatus (s : State) (v : Status) : step { s with status := v } = step s := by
  by_cases hsize : s.program.size ≤ Config.progMaxLen
  · obtain ⟨w, o, hs, hv⟩ := step_sameEffect (s' := { s with status := v }) hsize rfl rfl rfl
      fun _ => rfl
    exact hv.trans hs.symm
  · have hlong := Nat.lt_of_not_le hsize
    rw [step_programTooLong hlong]
    exact step_programTooLong hlong

/-- The cycle that fetches a byte of 16 or more (R197). -/
theorem step_illegal {op : Nat} (hf : s.Fetches op) (hop : 16 ≤ op) :
    step s = .next { s with pc := s.pc + 1, status := ⟨.stopped, .illegalOpcode⟩ } := by
  obtain ⟨hsize, hbyte⟩ := hf
  obtain ⟨hpc, b, bs, rfl, hbs⟩ := fetchBytes_of_byteAt_zero hbyte
  have hdec : decode s.fetchBytes = .ok (.illegal b) := by
    rw [hbs]
    exact decodeWith_illegal_cons opcodeMap_valid hop bs
  exact step_eq_exec hsize hpc hdec

end Sys2Proof.Machine

namespace Sys2Proof.Proofs

open Sys2Proof.Machine

/-! ### Decoder and encoder -/

/-- Settles O4: an encoding begins with its own fetched bytes. -/
theorem decodeOfEncode : Obligations.DecodeOfEncode := by
  intro m i hm hi
  exact (decodeWith_eq_ok_iff hm).2 ⟨hi, List.take_prefix _ _⟩

/-- Settles O5: bytes that decode begin with the fetched bytes of the encoding. -/
theorem encodeOfDecode : Obligations.EncodeOfDecode := by
  intro m bs i hm h
  obtain ⟨hi, hpre⟩ := (decodeWith_eq_ok_iff hm).1 h
  have htake : i.fetchedBytes m = bs.take (i.fetchedBytes m).length :=
    List.prefix_iff_eq_take.1 hpre
  have hle := hpre.length_le
  rw [length_fetchedBytes] at htake hle
  exact ⟨hi, hle, htake⟩

/-- Settles O6: only the fetched bytes decide what decodes. -/
theorem paddingIsIgnored : Obligations.PaddingIsIgnored := by
  intro m bs cs i hm h htake
  obtain ⟨hi, -, hbytes⟩ := encodeOfDecode m bs i hm h
  refine (decodeWith_eq_ok_iff hm).2 ⟨hi, ?_⟩
  rw [Instr.fetchedBytes, hbytes, ← htake]
  exact List.take_prefix _ _

/-- Settles O1: the default map is one R73 allows, so ILLEGAL begins at 16. -/
theorem opcodeDecoderTable : Obligations.OpcodeDecoderTable :=
  ⟨opcodeMap_valid, by decide, decodeOpcode_illegal_iff opcodeMap_valid⟩

/-- Settles O2: the decoder run on the eight words. -/
theorem wordsDecodeAsWritten : Obligations.WordsDecodeAsWritten :=
  ⟨rfl, rfl, rfl, rfl, rfl, rfl, rfl, rfl⟩

/-! ### The cycle -/

/-- Settles O31: the fetch walks the program byte by byte and ends where the program does. -/
theorem fetchReadsTheProgram : Obligations.FetchReadsTheProgram := by
  intro s
  exact ⟨length_bytesFrom s.program 4 s.pc.toNat, fun k hk => getElem?_bytesFrom 4 s.pc.toNat k hk⟩

/-- Settles O18: within the bound on the program `pc + 1` does not wrap, so the byte stands just before
the new `pc`; the cycle after it reads no `status`. -/
theorem illegalCycle : Obligations.IllegalCycle := by
  refine ⟨fun b => (decodeOpcode_illegal_iff opcodeMap_valid b).2, fun s op hf hop => ?_⟩
  refine ⟨_, step_illegal hf hop, rfl, ?_, step_setStatus { s with pc := s.pc + 1 } _⟩
  obtain ⟨hsize, hbyte⟩ := hf
  have hpc := (fetchBytes_of_byteAt_zero hbyte).1
  have hnext : (s.pc + 1).toNat = s.pc.toNat + 1 := toNat_seq (s := s) (n := 1) (by omega)
  rw [← hbyte, State.byteAt, hnext]
  rfl

end Sys2Proof.Proofs
end

section
/-! PROOFS. The statements of spec/40_cycle_and_decoder.md: the operand-fetch helpers, what ends a
cycle and what it commits, and where a run returns. -/

namespace Sys2Proof

/-! ### The operand fetch -/

theorem next16_of_length_lt_two {bs : List Byte} (h : bs.length < 2) :
    next16 bs = .error .truncatedInstruction := by
  match bs, h with
  | [], _ | [_], _ => rfl

theorem nextRegIndex_of_toNat_eq {r : RegIdx} {b : Byte} (h : b.toNat = r.val) (bs : List Byte) :
    nextRegIndex (b :: bs) = .ok (r, bs) := by
  rw [eq_regByte h, nextRegIndex_regByte]

/-! ### The missing opcode byte is no fault of the operands -/

theorem nextRegIndex_ne_noOpcodeByte (bs : List Byte) :
    nextRegIndex bs ≠ .error .noOpcodeByte := by
  cases bs with
  | nil => simp
  | cons b bs =>
    by_cases hb : b.toNat < 32
    · simp [nextRegIndex_legal hb]
    · simp [nextRegIndex_illegal (Nat.le_of_not_lt hb)]

theorem fetchR1_ne_noOpcodeByte (mk : RegIdx → Instr) (bs : List Byte) :
    fetchR1 mk bs ≠ .error .noOpcodeByte := by
  unfold fetchR1
  split
  · next r hr => exact fun h => nextRegIndex_ne_noOpcodeByte bs (Except.error.inj h ▸ hr)
  · simp

theorem fetchR2_ne_noOpcodeByte (mk : RegIdx → RegIdx → Instr) (bs : List Byte) :
    fetchR2 mk bs ≠ .error .noOpcodeByte := by
  unfold fetchR2
  split
  · next r hr => exact fun h => nextRegIndex_ne_noOpcodeByte bs (Except.error.inj h ▸ hr)
  · exact fetchR1_ne_noOpcodeByte _ _

theorem fetchR3_ne_noOpcodeByte (mk : RegIdx → RegIdx → RegIdx → Instr) (bs : List Byte) :
    fetchR3 mk bs ≠ .error .noOpcodeByte := by
  unfold fetchR3
  split
  · next r hr => exact fun h => nextRegIndex_ne_noOpcodeByte bs (Except.error.inj h ▸ hr)
  · exact fetchR2_ne_noOpcodeByte _ _

theorem fetchLI_ne_noOpcodeByte (bs : List Byte) : fetchLI bs ≠ .error .noOpcodeByte := by
  unfold fetchLI
  split
  · next r hr => exact fun h => nextRegIndex_ne_noOpcodeByte bs (Except.error.inj h ▸ hr)
  · next d rest hd =>
    match rest with
    | [] | [_] | _ :: _ :: _ => simp [next16]

theorem fetchOperands_ne_noOpcodeByte (o : Operation) (bs : List Byte) :
    fetchOperands o bs ≠ .error .noOpcodeByte := by
  cases o with
  | load => exact fetchLI_ne_noOpcodeByte bs
  | hlt => simp [fetchOperands]
  | add | sub | mul | div => exact fetchR3_ne_noOpcodeByte _ bs
  | jmp | jmpf | jmpb | jmpe => exact fetchR1_ne_noOpcodeByte _ bs
  | eq | neq | gte | lte | gt | lt => exact fetchR2_ne_noOpcodeByte _ bs

/-- The decoder misses the opcode byte only where there is no byte at all. -/
theorem decodeWith_eq_noOpcodeByte_iff (m : OpcodeMap) (bs : List Byte) :
    decodeWith m bs = .error .noOpcodeByte ↔ bs = [] := by
  cases bs with
  | nil => simp [decodeWith]
  | cons b bs =>
    simp only [decodeWith, reduceCtorEq, iff_false]
    split
    · exact fetchOperands_ne_noOpcodeByte _ bs
    · simp

end Sys2Proof

namespace Sys2Proof.Machine

variable {s t : State}

/-! ### What a cycle commits -/

/-- Whatever is staged, a commit leaves every register but one alone (R110). -/
theorem commit_get_of_ne (s : State) (w : Staged) :
    ∃ d : RegIdx, ∀ r, r ≠ d → (s.commit w).x.get r = s.x.get r := by
  cases hw : w.reg with
  | none => exact ⟨0, fun r _ => by rw [commit_x_none s w hw]⟩
  | some dv =>
    obtain ⟨d, v⟩ := dv
    refine ⟨d, fun r hr => ?_⟩
    rw [commit_x_some s w d v hw]
    exact get_set_other d r v s.x hr

/-- Within the bound on the program every cycle commits and latches an outcome (R112). -/
theorem step_eq_next (h : s.program.size ≤ Config.progMaxLen) :
    ∃ w o, step s = .next ((s.commit w).endCycle o) := by
  obtain ⟨w, o, hs, -⟩ := step_sameEffect (s' := s) h rfl rfl rfl fun _ => rfl
  exact ⟨w, o, hs⟩

/-! ### The end of the program -/

/-- At or past the end the cycle stops there and writes only `status` (R102). -/
theorem step_programEnd (hsize : s.program.size ≤ Config.progMaxLen)
    (hend : s.program.size ≤ s.pc.toNat) : step s = .next (s.endCycle .programEnd) := by
  rcases step_cases hsize with ⟨-, he⟩ | ⟨hpc, -⟩ | ⟨hpc, -⟩
  · exact he
  · omega
  · omega

/-- No instruction ends with ProgramEnd (R102). -/
theorem cause_ne_programEnd_of_exec {i : Instr} (h : exec i s = .next t) :
    t.status.cause ≠ .programEnd := by
  rcases exec_cases i s with ⟨w, -, -, -, he⟩ | ⟨-, he⟩ | ⟨-, he⟩ | ⟨-, he⟩ | ⟨-, he⟩ <;>
  · rw [he] at h
    cases h
    simp

/-- Below the program's end there is an opcode byte, so a rejected cycle ends in a fault (R209). -/
theorem cause_ne_programEnd_of_takeReject {r : Reject} (hpc : s.pc.toNat < s.program.size)
    (hr : decode s.fetchBytes = .error r) (h : s.takeReject r = .next t) :
    t.status.cause ≠ .programEnd := by
  cases r with
  | noOpcodeByte =>
    have hnil := (decodeWith_eq_noOpcodeByte_iff opcodeMap s.fetchBytes).1 hr
    have hlen : s.fetchBytes.length = min 4 (s.program.size - s.pc.toNat) :=
      length_bytesFrom s.program 4 s.pc.toNat
    rw [hnil, List.length_nil] at hlen
    omega
  | truncatedInstruction | registerOutOfRange =>
    cases h
    simp

/-- The program-end test is the only source of ProgramEnd (R102). -/
theorem size_le_pc_of_step_programEnd (h : step s = .next t) (hc : t.status.cause = .programEnd) :
    s.program.size ≤ s.pc.toNat := by
  rcases step_cases (size_le_of_step h) with ⟨hend, -⟩ | ⟨hpc, r, hr, he⟩ | ⟨-, i, -, he⟩
  · exact hend
  · exact absurd hc (cause_ne_programEnd_of_takeReject hpc hr (he.symm.trans h))
  · exact absurd hc (cause_ne_programEnd_of_exec (he.symm.trans h))

/-! ### Runs -/

/-- The states in which the cycles of a run begin: from `s` on, each cycle continues to the next state
of the path, and the last one stops in `t` (R113). -/
def StopsAlong (s t : State) (path : List State) : Prop :=
  path.head? = some s ∧
  (∀ k u v, path[k]? = some u → path[k + 1]? = some v →
    step u = .next v ∧ v.status.cause = .continued) ∧
  (∃ u, path.getLast? = some u ∧ step u = .next t) ∧
  t.status.run = .stopped ∧ t.status.cause ≠ .continued

/-- After a cycle the two fields of `status` agree on whether it stopped (R111). -/
theorem run_stopped_iff_of_step (h : step s = .next t) :
    t.status.run = .stopped ↔ t.status.cause ≠ .continued := by
  obtain ⟨w, o, rfl⟩ := step_next_eq_endCycle h
  cases o <;> simp [CycleOutcome.runAfter]

theorem not_stopsAlong_nil : ¬ StopsAlong s t [] := by
  rintro ⟨hhead, -⟩
  simp at hhead

theorem stopsAlong_singleton_iff {a : State} :
    StopsAlong s t [a] ↔ a = s ∧ step s = .next t ∧ t.status.run = .stopped := by
  constructor
  · rintro ⟨hhead, -, ⟨u, hlast, hstep⟩, hrun, -⟩
    cases hhead
    cases hlast
    exact ⟨rfl, hstep, hrun⟩
  · rintro ⟨rfl, hstep, hrun⟩
    exact ⟨rfl, by simp, ⟨_, rfl, hstep⟩, hrun, (run_stopped_iff_of_step hstep).1 hrun⟩

theorem stopsAlong_cons_cons_iff {a b : State} {path : List State} :
    StopsAlong s t (a :: b :: path) ↔
      a = s ∧ step s = .next b ∧ b.status.cause = .continued ∧ StopsAlong b t (b :: path) := by
  constructor
  · rintro ⟨hhead, hlink, ⟨u, hlast, hstep⟩, hstop⟩
    cases hhead
    obtain ⟨hfirst, hcont⟩ := hlink 0 s b rfl rfl
    exact ⟨rfl, hfirst, hcont, rfl, fun k => hlink (k + 1), ⟨u, hlast, hstep⟩, hstop⟩
  · rintro ⟨rfl, hfirst, hcont, -, hlink, ⟨u, hlast, hstep⟩, hstop⟩
    refine ⟨rfl, fun k => ?_, ⟨u, hlast, hstep⟩, hstop⟩
    cases k with
    | zero =>
      rintro u v ⟨⟩ ⟨⟩
      exact ⟨hfirst, hcont⟩
    | succ k => exact hlink k

/-- What `fuel` cycles return: the stop at the end of a path of at most that many cycles. -/
theorem runCycles_eq_some_iff {fuel : Nat} :
    runCycles fuel s = some t ↔ ∃ path, path.length ≤ fuel ∧ StopsAlong s t path := by
  induction fuel generalizing s with
  | zero =>
    simp only [runCycles_zero, reduceCtorEq, Nat.le_zero, List.length_eq_zero_iff, false_iff]
    rintro ⟨_, rfl, hpath⟩
    exact not_stopsAlong_nil hpath
  | succ fuel ih =>
    constructor
    · intro h
      obtain ⟨n, u, hn, hstep, ⟨hrun, rfl⟩ | ⟨hrun, hrest⟩⟩ := runCycles_cases h
      · exact ⟨[s], by simp, stopsAlong_singleton_iff.2 ⟨rfl, hstep, hrun⟩⟩
      · cases hn
        have hcont := (Proofs.statusAfterACycle _ _ hstep).1 hrun
        obtain ⟨path, hlen, hpath⟩ := ih.1 hrest
        cases path with
        | nil => exact absurd hpath not_stopsAlong_nil
        | cons b path =>
          obtain rfl : b = u := Option.some.inj hpath.1
          exact ⟨s :: b :: path, Nat.succ_le_succ hlen,
            stopsAlong_cons_cons_iff.2 ⟨rfl, hstep, hcont, hpath⟩⟩
    · rintro ⟨path, hlen, hpath⟩
      match path with
      | [] => exact absurd hpath not_stopsAlong_nil
      | [a] =>
        obtain ⟨-, hstep, hrun⟩ := stopsAlong_singleton_iff.1 hpath
        exact runCycles_stopped hstep hrun fuel
      | a :: b :: path =>
        obtain ⟨-, hstep, hcont, hrest⟩ := stopsAlong_cons_cons_iff.1 hpath
        rw [runCycles_running hstep ((Proofs.statusAfterACycle _ _ hstep).2 hcont)]
        exact ih.2 ⟨b :: path, Nat.le_of_succ_le_succ hlen, hrest⟩

end Sys2Proof.Machine

namespace Sys2Proof.Proofs

open Sys2Proof.Machine

/-! ### One cycle -/

/-- Settles O27: every cycle ends in one commit, which has one write port for the registers. -/
theorem cycleWritesOneRegister : Obligations.CycleWritesOneRegister := by
  intro s t h
  obtain ⟨w, o, rfl⟩ := step_next_eq_endCycle h
  exact commit_get_of_ne s w

/-- Settles O32: the program-end test comes first, and below the end there is an opcode byte to decode,
so neither the decoder nor an instruction ends a cycle so. -/
theorem programEndStopsCleanly : Obligations.ProgramEndStopsCleanly :=
  ⟨fun _ hsize hend => step_programEnd hsize hend, fun _ _ => size_le_pc_of_step_programEnd⟩

/-- Settles O33: every outcome of a cycle within the bound is a latched next state. -/
theorem everyCycleHasANextState : Obligations.EveryCycleHasANextState := by
  intro s
  refine ⟨fun hsize => ?_, step_programTooLong⟩
  obtain ⟨w, o, hstep⟩ := step_eq_next hsize
  exact ⟨_, hstep⟩

/-- Settles O30: below the program's end the cycle is the decoded instruction. -/
theorem stepRunsTheDecodedInstruction : Obligations.StepRunsTheDecodedInstruction :=
  fun _ _ => step_eq_exec

/-- Settles O39: `status` is no input of a cycle, within the bound on the program or past it. -/
theorem statusIsNotRead : Obligations.StatusIsNotRead :=
  step_setStatus

/-! ### The operand fetch -/

/-- Settles O3: one law of the helpers for each clause. -/
theorem operandFetchHelpers : Obligations.OperandFetchHelpers :=
  ⟨nextByte_nil, nextByte_cons, nextRegIndex_nil, fun _ bs h => nextRegIndex_illegal h bs,
    fun _ _ bs h => nextRegIndex_of_toNat_eq h bs, fun _ => next16_of_length_lt_two,
    fun hi lo bs => ⟨hi ++ lo, toNat_imm hi lo, next16_cons hi lo bs⟩⟩

/-! ### Runs -/

/-- Settles O55: by induction on the fuel, with the path growing by the cycle in front. -/
theorem runEndsAtTheFirstStop : Obligations.RunEndsAtTheFirstStop :=
  fun _ _ _ => runCycles_eq_some_iff

/-- Settles O56: the path of a run that returns does not get longer with the fuel. -/
theorem runDoesNotDependOnFuel : Obligations.RunDoesNotDependOnFuel := by
  intro s t n m hrun hle
  obtain ⟨path, hlen, hpath⟩ := runCycles_eq_some_iff.1 hrun
  exact runCycles_eq_some_iff.2 ⟨path, hlen.trans hle, hpath⟩

end Sys2Proof.Proofs
end

section
/-! PROOFS. The statements of spec/41_load.md: the faults of register operand bytes for any operation
that fetches them, and LOAD from its bytes to its effect. -/

namespace Sys2Proof

/-! ### Register operands in stream order -/

/-- A fetch that begins with `n` register operands: after fewer than `n` legal ones, what the next
register fetch rejects it rejects for the same reason (R78, R209). -/
def FetchesRegisters (n : Nat) (fetch : List Byte → Except Reject Instr) : Prop :=
  ∀ (regs : List RegIdx) (bs : List Byte) (r : Reject), regs.length < n →
    nextRegIndex bs = .error r → fetch (regs.map regByte ++ bs) = .error r

theorem fetchesRegisters_zero (fetch : List Byte → Except Reject Instr) :
    FetchesRegisters 0 fetch :=
  fun _ _ _ h => absurd h (Nat.not_lt_zero _)

/-- A fetch of one register operand followed by a fetch of `n` is a fetch of `n + 1`. -/
theorem fetchesRegisters_succ {n : Nat} {fetch : List Byte → Except Reject Instr}
    {rest : RegIdx → List Byte → Except Reject Instr}
    (hreject : ∀ bs r, nextRegIndex bs = .error r → fetch bs = .error r)
    (hrest : ∀ d bs, fetch (regByte d :: bs) = rest d bs)
    (h : ∀ d, FetchesRegisters n (rest d)) : FetchesRegisters (n + 1) fetch := by
  intro regs bs r hlen hr
  cases regs with
  | nil => exact hreject bs r hr
  | cons d regs => exact (hrest d _).trans (h d regs bs r (Nat.lt_of_succ_lt_succ hlen) hr)

/-! ### The operands of LOAD -/

theorem fetchLI_of_nextRegIndex_error {bs : List Byte} {r : Reject}
    (h : nextRegIndex bs = .error r) : fetchLI bs = .error r := by
  simp [fetchLI, h]

theorem fetchLI_of_next16_error {bs : List Byte} {r : Reject} (d : RegIdx)
    (h : next16 bs = .error r) : fetchLI (regByte d :: bs) = .error r := by
  simp [fetchLI, h]

theorem fetchLI_regByte_cons_cons (d : RegIdx) (hi lo : Byte) (bs : List Byte) :
    fetchLI (regByte d :: hi :: lo :: bs) = .ok (.load d (hi ++ lo)) := by
  simp [fetchLI]

theorem fetchesRegisters_load : FetchesRegisters 1 (fetchOperands .load) :=
  fetchesRegisters_succ (fun _ _ => fetchLI_of_nextRegIndex_error) (fun _ _ => rfl)
    fun _ => fetchesRegisters_zero _

end Sys2Proof

namespace Sys2Proof.Machine

variable {s : State}

/-! ### The operand bytes of a cycle -/

/-- The bytes after the opcode byte that a cycle may fetch: those at `pc + 1` to `pc + 3` that exist. -/
def State.operandBytes (s : State) : List Byte := s.program.bytesFrom (s.pc.toNat + 1) 3

/-- A cycle that fetches the code of an operation decodes by fetching that operation's operands. -/
theorem decode_fetchBytes {o : Operation} (hf : s.Fetches (opcodeMap.code o).toNat) :
    decode s.fetchBytes = fetchOperands o s.operandBytes := by
  obtain ⟨-, hbyte⟩ := hf
  obtain ⟨b, hb, hop⟩ := Option.map_eq_some_iff.1 hbyte
  obtain rfl := BitVec.eq_of_toNat_eq hop
  have hbytes : s.fetchBytes = opcodeMap.code o :: s.operandBytes := bytesFrom_cons hb
  rw [hbytes]
  exact decodeWith_code_cons opcodeMap_valid o _

/-- A program byte that spells a register number is that register's operand byte. -/
theorem byte?_eq_regByte {k : Nat} {r : RegIdx} (h : s.byteAt k = some r.val) :
    s.program.byte? (s.pc.toNat + k) = some (regByte r) := by
  obtain ⟨b, hb, hr⟩ := Option.map_eq_some_iff.1 h
  rw [hb, eq_regByte hr]

/-- Where `k` bytes in a row spell register numbers, they are the first `k` read from there. -/
theorem bytesFrom_eq_regBytes_append {m : Memory} (n : Nat) : ∀ {k a : Nat},
    (∀ j < k, ∃ r : RegIdx, m.byte? (a + j) = some (regByte r)) →
    ∃ regs : List RegIdx, regs.length = k ∧
      m.bytesFrom a (k + n) = regs.map regByte ++ m.bytesFrom (a + k) n := by
  intro k
  induction k with
  | zero => intro a _; exact ⟨[], rfl, by simp⟩
  | succ k ih =>
    intro a h
    obtain ⟨d, hd⟩ : ∃ d : RegIdx, m.byte? a = some (regByte d) := h 0 (Nat.succ_pos k)
    have htail : ∀ j < k, ∃ r : RegIdx, m.byte? (a + 1 + j) = some (regByte r) := by
      intro j hj
      rw [Nat.add_right_comm]
      exact h (j + 1) (Nat.succ_lt_succ hj)
    obtain ⟨regs, hlen, hregs⟩ := ih htail
    refine ⟨d :: regs, congrArg (· + 1) hlen, ?_⟩
    rw [Nat.add_right_comm, bytesFrom_cons hd, hregs, Nat.add_right_comm a 1 k]
    rfl

/-! ### What a cycle is, given its operand bytes -/

/-- Below the program's end bytes that give no instruction end the cycle with their stop. -/
theorem step_eq_takeReject {r : Reject} (hsize : s.program.size ≤ Config.progMaxLen)
    (hpc : s.pc.toNat < s.program.size) (hr : decode s.fetchBytes = .error r) :
    step s = s.takeReject r := by
  rcases step_cases hsize with ⟨hend, -⟩ | ⟨-, q, hq, he⟩ | ⟨-, i, hi, -⟩
  · omega
  · cases hr.symm.trans hq
    exact he
  · cases hr.symm.trans hi

/-- The cycle of an operation whose operand bytes are all there and legal. -/
theorem step_of_fetchOperands_ok {o : Operation} {i : Instr}
    (hf : s.Fetches (opcodeMap.code o).toNat) (hi : fetchOperands o s.operandBytes = .ok i) :
    step s = exec i s :=
  step_eq_exec hf.1 (fetchBytes_of_byteAt_zero hf.2).1 ((decode_fetchBytes hf).trans hi)

/-- The cycle of an operation whose operand bytes are rejected. -/
theorem step_of_fetchOperands_error {o : Operation} {r : Reject}
    (hf : s.Fetches (opcodeMap.code o).toNat) (hr : fetchOperands o s.operandBytes = .error r) :
    step s = s.takeReject r :=
  step_eq_takeReject hf.1 (fetchBytes_of_byteAt_zero hf.2).1 ((decode_fetchBytes hf).trans hr)

/-- The register operand faults of any operation that fetches up to three registers first: the legal
bytes before the bad or missing one are passed over, and its reject ends the cycle. -/
theorem operandFaults_of_fetchesRegisters {o : Operation} {n : Nat} (hn : n ≤ 3)
    (h : FetchesRegisters n (fetchOperands o)) : OperandFaults (opcodeMap.code o).toNat n := by
  intro s hf k hk hkn hbefore
  obtain ⟨j, rfl⟩ := Nat.exists_eq_add_of_le hk
  obtain ⟨l, hl⟩ := Nat.exists_eq_add_of_le (show j + 1 ≤ 3 by omega)
  have hlegal : ∀ i < j, ∃ r : RegIdx, s.program.byte? (s.pc.toNat + 1 + i) = some (regByte r) := by
    intro i hi
    obtain ⟨r, hr⟩ := hbefore (1 + i) (by omega) (by omega)
    exact ⟨r, by rw [Nat.add_assoc]; exact byte?_eq_regByte hr⟩
  obtain ⟨regs, hlen, hregs⟩ := bytesFrom_eq_regBytes_append (l + 1) hlegal
  have hbytes : s.operandBytes =
      regs.map regByte ++ s.program.bytesFrom (s.pc.toNat + (1 + j)) (l + 1) := by
    rw [State.operandBytes, show 3 = j + (l + 1) by omega, hregs, Nat.add_assoc]
  have hstop {r : Reject}
      (hr : nextRegIndex (s.program.bytesFrom (s.pc.toNat + (1 + j)) (l + 1)) = .error r) :
      step s = s.takeReject r :=
    step_of_fetchOperands_error hf (by rw [hbytes]; exact h regs _ r (by omega) hr)
  constructor
  · intro hend
    refine hstop (r := .truncatedInstruction) ?_
    rw [bytesFrom_nil ((byte?_eq_none_iff _ _).2 hend), nextRegIndex_nil]
  · intro v hv hbad
    obtain ⟨b, hb, rfl⟩ := Option.map_eq_some_iff.1 hv
    refine hstop (r := .registerOutOfRange) ?_
    rw [bytesFrom_cons hb]
    exact nextRegIndex_illegal hbad _

/-! ### LOAD -/

theorem zext32_eq_ofNat (imm : Imm) : zext32 imm = BitVec.ofNat 32 imm.toNat :=
  (BitVec.ofNat_toNat 32 imm).symm

/-- LOAD has no fault of its own: it always commits the zero-extended immediate (R130). -/
theorem exec_load (s : State) (d : RegIdx) (imm : Imm) :
    exec (.load d imm) s = .next { s with
      x := s.x.set d.val (BitVec.ofNat 32 imm.toNat) d.isLt, pc := s.pc + 4, status := .ran } := by
  rw [← zext32_eq_ofNat]
  rfl

/-- The operand bytes of LOAD begin with its register byte. -/
theorem operandBytes_of_register {d : RegIdx} (hd : s.byteAt 1 = some d.val) :
    s.operandBytes = regByte d :: s.program.bytesFrom (s.pc.toNat + 2) 2 :=
  bytesFrom_cons (byte?_eq_regByte hd)

/-- LOAD with an immediate byte missing (R109, R130). -/
theorem step_load_truncated {d : RegIdx} (hf : s.Fetches 0) (hd : s.byteAt 1 = some d.val)
    (hend : s.program.size ≤ s.pc.toNat + 3) : step s = .next (s.faulted .truncatedInstruction) := by
  have hshort : (s.program.bytesFrom (s.pc.toNat + 2) 2).length < 2 := by
    rw [length_bytesFrom]
    omega
  refine step_of_fetchOperands_error (o := .load) (r := .truncatedInstruction) hf ?_
  rw [operandBytes_of_register hd]
  exact fetchLI_of_next16_error d (next16_of_length_lt_two hshort)

/-- LOAD with all its bytes: the immediate is the two bytes, the first the high one (R53, R130). -/
theorem step_load {d : RegIdx} {hi lo : Nat} (hf : s.Fetches 0) (hd : s.byteAt 1 = some d.val)
    (hhi : s.byteAt 2 = some hi) (hlo : s.byteAt 3 = some lo) :
    step s = .next { s with
      x := s.x.set d.val (BitVec.ofNat 32 (hi * 256 + lo)) d.isLt, pc := s.pc + 4,
      status := .ran } := by
  obtain ⟨bhi, hbhi, rfl⟩ := Option.map_eq_some_iff.1 hhi
  obtain ⟨blo, hblo, rfl⟩ := Option.map_eq_some_iff.1 hlo
  have hfetch : fetchOperands .load s.operandBytes = .ok (.load d (bhi ++ blo)) := by
    rw [operandBytes_of_register hd, bytesFrom_cons hbhi, bytesFrom_cons hblo]
    exact fetchLI_regByte_cons_cons d bhi blo _
  rw [step_of_fetchOperands_ok (o := .load) hf hfetch, exec_load, toNat_imm]

end Sys2Proof.Machine

namespace Sys2Proof.Proofs

open Sys2Proof.Machine

/-- Settles O19: the commit of LOAD in its plain form. -/
theorem loadResult : Obligations.LoadResult :=
  exec_load

/-- Settles O7: one register operand, then the two immediate bytes together, then the commit. -/
theorem loadCycle : Obligations.LoadCycle :=
  ⟨operandFaults_of_fetchesRegisters (o := .load) (by decide) fetchesRegisters_load,
    fun _ _ => step_load_truncated, fun _ _ _ _ => step_load⟩

end Sys2Proof.Proofs
end

section
/-! PROOFS. The statements of spec/42_arithmetic.md: the division functions, the overflow law, and ADD,
SUB, MUL and DIV from their bytes to their effect. -/

namespace Sys2Proof

/-! ### Operands of register formats in stream order -/

theorem fetchesRegisters_R1 (mk : RegIdx → Instr) : FetchesRegisters 1 (fetchR1 mk) :=
  fetchesRegisters_succ (fun _ _ h => by simp [fetchR1, h]) (fun _ _ => rfl)
    fun _ => fetchesRegisters_zero _

theorem fetchesRegisters_R2 (mk : RegIdx → RegIdx → Instr) : FetchesRegisters 2 (fetchR2 mk) :=
  fetchesRegisters_succ (fun _ _ h => by simp [fetchR2, h]) (fun _ _ => by simp [fetchR2])
    fun d => fetchesRegisters_R1 (mk d)

theorem fetchesRegisters_R3 (mk : RegIdx → RegIdx → RegIdx → Instr) :
    FetchesRegisters 3 (fetchR3 mk) :=
  fetchesRegisters_succ (fun _ _ h => by simp [fetchR3, h]) (fun _ _ => by simp [fetchR3])
    fun d => fetchesRegisters_R2 (mk d)

end Sys2Proof

namespace Sys2Proof.Machine

variable {s t : State}

/-! ### Division toward zero -/

/-- `tdiv` is the library's division toward zero: with `|n| < |d|` both are 0, and otherwise both have
the sign `sign(n) * sign(d)` and the magnitude `|n| / |d|`. -/
theorem tdiv_eq_tdiv (n d : Int) : tdiv n d = n.tdiv d := by
  rw [← Int.sign_mul_natAbs (n.tdiv d), Int.sign_tdiv, Int.natAbs_tdiv, tdiv]
  split
  · next hlt => simp [Nat.div_eq_of_lt hlt]
  · rfl

theorem trem_eq_tmod (n d : Int) : trem n d = n.tmod d := by
  rw [trem, tdiv_eq_tdiv, Int.tmod_def]

/-- The equation that names quotient and remainder (R141). -/
theorem mul_tdiv_add_trem (n d : Int) : d * tdiv n d + trem n d = n :=
  add_sub_cancel (d * tdiv n d) n

theorem abs_trem_lt (n : Int) {d : Int} (hd : d ≠ 0) : |trem n d| < |d| := by
  rw [trem_eq_tmod, Int.abs_eq_natAbs, Int.abs_eq_natAbs, Int.natAbs_tmod, Int.ofNat_lt]
  exact Nat.mod_lt _ (Int.natAbs_pos.2 hd)

/-- The remainder is 0 where the divisor divides, and has the dividend's sign elsewhere (R141). -/
theorem trem_eq_zero_or_sign_eq (n d : Int) : trem n d = 0 ∨ (trem n d).sign = n.sign := by
  rw [trem_eq_tmod]
  by_cases hdvd : d ∣ n
  · exact .inl (Int.tmod_eq_zero_of_dvd hdvd)
  · exact .inr (by rw [Int.sign_tmod, if_neg hdvd])

/-! ### Truncation to 32 bits is a homomorphism of rings -/

theorem trunc32_add (m n : Int) : trunc32 (m + n) = trunc32 m + trunc32 n :=
  BitVec.ofInt_add m n

theorem trunc32_sub (m n : Int) : trunc32 (m - n) = trunc32 m - trunc32 n := by
  rw [Int.sub_eq_add_neg, trunc32_add, trunc32, trunc32, BitVec.ofInt_neg, ← BitVec.sub_eq_add_neg]
  rfl

theorem trunc32_mul (m n : Int) : trunc32 (m * n) = trunc32 m * trunc32 n :=
  BitVec.ofInt_mul m n

@[simp] theorem trunc32_toInt (v : Word) : trunc32 v.toInt = v :=
  BitVec.ofInt_toInt

@[simp] theorem trunc32_natCast (n : Nat) : trunc32 n = BitVec.ofNat 32 n :=
  BitVec.ofInt_natCast 32 n

theorem toNat_trunc32 (n : Int) : ((trunc32 n).toNat : Int) = n % 2 ^ 32 := by
  rw [trunc32, BitVec.toNat_ofInt, Int.toNat_of_nonneg (Int.emod_nonneg _ (by decide))]
  rfl

/-! ### The arithmetic of the `alu` is the machine's -/

theorem aluResult_add (a b : Word) : aluResult .add a.toInt b.toInt = a + b := by
  simp [aluResult, ArithOp.exact, trunc32_add]

theorem aluResult_sub (a b : Word) : aluResult .sub a.toInt b.toInt = a - b := by
  simp [aluResult, ArithOp.exact, trunc32_sub]

theorem aluResult_mul (a b : Word) : aluResult .mul a.toInt b.toInt = a * b := by
  simp [aluResult, ArithOp.exact, trunc32_mul]

/-- The quotient is the signed machine division, the overflowing one included. -/
theorem trunc32_tdiv (a b : Word) : trunc32 (tdiv a.toInt b.toInt) = a.sdiv b := by
  apply BitVec.eq_of_toInt_eq
  rw [tdiv_eq_tdiv, trunc32, BitVec.toInt_ofInt, BitVec.toInt_sdiv]

/-- The remainder always fits: it is the signed machine remainder, untruncated. -/
theorem trunc32_trem (a b : Word) : trunc32 (trem a.toInt b.toInt) = a.srem b := by
  rw [trem_eq_tmod, ← BitVec.toInt_srem, trunc32_toInt]

theorem toInt_srem_eq_trem (a b : Word) : (a.srem b).toInt = trem a.toInt b.toInt := by
  rw [BitVec.toInt_srem, trem_eq_tmod]

/-! ### What the four instructions do -/

/-- The shared cycle of ADD, SUB and MUL always commits the truncated exact result (R143 to R145). -/
theorem arith_eq (o : ArithOp) (a b d : RegIdx) (s : State) :
    s.arith o a b d = .next { s with
      x := s.x.set d.val (aluResult o (s.x.get a).toInt (s.x.get b).toInt) d.isLt
      pc := s.pc + 4, status := .ran } :=
  rfl

theorem exec_div_of_eq_zero {b : RegIdx} (a d : RegIdx) (hz : (s.x.get b).toInt = 0) :
    exec (.div a b d) s = .next (s.faulted .divisionByZero) :=
  if_pos (decide_eq_true hz)

theorem exec_div_of_ne_zero {b : RegIdx} (a d : RegIdx) (hz : (s.x.get b).toInt ≠ 0) :
    exec (.div a b d) s = .next { s with
      x := s.x.set d.val (trunc32 (tdiv (s.x.get a).toInt (s.x.get b).toInt)) d.isLt
      rem := trunc32 (trem (s.x.get a).toInt (s.x.get b).toInt)
      pc := s.pc + 4, status := .ran } :=
  if_neg fun h => hz (of_decide_eq_true h)

/-- A DIV that continues had a divisor, and left quotient and remainder (R146). -/
theorem div_of_continued {a b d : RegIdx} (h : exec (.div a b d) s = .next t)
    (hc : t.status.cause = .continued) :
    (s.x.get b).toInt ≠ 0 ∧
    t.x.get d = trunc32 (tdiv (s.x.get a).toInt (s.x.get b).toInt) ∧
    t.rem = trunc32 (trem (s.x.get a).toInt (s.x.get b).toInt) := by
  by_cases hz : (s.x.get b).toInt = 0
  · rw [exec_div_of_eq_zero a d hz] at h
    cases h
    cases hc
  · rw [exec_div_of_ne_zero a d hz] at h
    cases h
    exact ⟨hz, get_set_same d _ s.x, rfl⟩

/-! ### Cycles of format R3 -/

/-- Three register bytes after the opcode are the operand bytes of a cycle. -/
theorem operandBytes_of_registers {a b d : RegIdx} (ha : s.byteAt 1 = some a.val)
    (hb : s.byteAt 2 = some b.val) (hd : s.byteAt 3 = some d.val) :
    s.operandBytes = [regByte a, regByte b, regByte d] := by
  rw [operandBytes_of_register ha, bytesFrom_cons (byte?_eq_regByte hb),
    bytesFrom_cons (byte?_eq_regByte hd)]
  rfl

/-- The cycle of an operation of format R3 whose three operand bytes are legal is its instruction. -/
theorem step_of_registers {o : Operation} {mk : RegIdx → RegIdx → RegIdx → Instr}
    (hmk : fetchOperands o = fetchR3 mk) (hf : s.Fetches (opcodeMap.code o).toNat)
    {a b d : RegIdx} (ha : s.byteAt 1 = some a.val) (hb : s.byteAt 2 = some b.val)
    (hd : s.byteAt 3 = some d.val) : step s = exec (mk a b d) s := by
  refine step_of_fetchOperands_ok hf ?_
  rw [hmk, operandBytes_of_registers ha hb hd]
  exact fetchR3_regByte mk a b d []

theorem operandFaults_of_fetchR3 {o : Operation} {mk : RegIdx → RegIdx → RegIdx → Instr}
    (hmk : fetchOperands o = fetchR3 mk) : OperandFaults (opcodeMap.code o).toNat 3 :=
  operandFaults_of_fetchesRegisters (Nat.le_refl 3) (hmk ▸ fetchesRegisters_R3 mk)

/-- The whole cycle of an operation of format R3 that runs the shared arithmetic cycle. -/
theorem arithCycle_of_arith {o : Operation} {mk : RegIdx → RegIdx → RegIdx → Instr} {op : ArithOp}
    (hmk : fetchOperands o = fetchR3 mk)
    (hexec : ∀ (s : State) (a b d : RegIdx), exec (mk a b d) s = s.arith op a b d) :
    ArithCycle (opcodeMap.code o).toNat op.exact := by
  refine ⟨operandFaults_of_fetchR3 hmk, fun s a b d hf ha hb hd => ?_⟩
  rw [step_of_registers hmk hf ha hb hd, hexec]
  exact arith_eq op a b d s

end Sys2Proof.Machine

namespace Sys2Proof.Proofs

open Sys2Proof.Machine

/-! ### One cycle of each instruction -/

/-- Settles O8: ADD is the shared arithmetic cycle with the exact sum. -/
theorem addCycle : Obligations.AddCycle :=
  arithCycle_of_arith (o := .add) (op := .add) rfl fun _ _ _ _ => rfl

/-- Settles O9: SUB is the shared arithmetic cycle with the exact difference. -/
theorem subCycle : Obligations.SubCycle :=
  arithCycle_of_arith (o := .sub) (op := .sub) rfl fun _ _ _ _ => rfl

/-- Settles O10: MUL is the shared arithmetic cycle with the exact product. -/
theorem mulCycle : Obligations.MulCycle :=
  arithCycle_of_arith (o := .mul) (op := .mul) rfl fun _ _ _ _ => rfl

/-- Settles O11: the three operands are fetched before the divisor is tested. -/
theorem divCycle : Obligations.DivCycle := by
  refine ⟨operandFaults_of_fetchR3 (o := .div) rfl, fun s a b d hf ha hb hd => ?_⟩
  rw [step_of_registers (o := .div) rfl hf ha hb hd]
  exact ⟨exec_div_of_eq_zero a d, exec_div_of_ne_zero a d⟩

/-! ### Where each instruction completes -/

/-- Settles O20: the truncated exact results are the machine's sum, difference and product. -/
theorem arithmeticResults : Obligations.ArithmeticResults := by
  intro s a b d
  rw [← aluResult_add, ← aluResult_sub, ← aluResult_mul]
  exact ⟨arith_eq .add a b d s, arith_eq .sub a b d s, arith_eq .mul a b d s⟩

/-- Settles O21: the truncated quotient and remainder are the machine's, and a word is 0 exactly when
its signed reading is. -/
theorem divResult : Obligations.DivResult := by
  intro s a b d
  rw [← trunc32_tdiv, ← trunc32_trem]
  constructor
  · intro hne
    exact exec_div_of_ne_zero a d fun hz => hne (BitVec.eq_of_toInt_eq hz)
  · intro hz
    exact exec_div_of_eq_zero a d (congrArg BitVec.toInt hz)

/-! ### The alu -/

/-- Settles O44: `tdiv` and `trem` are the library's truncating division. -/
theorem divisionTowardZero : Obligations.DivisionTowardZero := by
  intro n d hd
  refine ⟨?_, rfl, (mul_tdiv_add_trem n d).symm, abs_trem_lt n hd, trem_eq_zero_or_sign_eq n d, ?_, ?_⟩
  · rw [tdiv, Int.natCast_ediv, Int.natCast_natAbs, Int.natCast_natAbs]
  · simp only [tdiv_eq_tdiv, Int.neg_tdiv]
  · simp only [tdiv_eq_tdiv, Int.tdiv_neg]

/-- Settles O45: truncation keeps sums, differences and products, so either reading of the operands
gives the same bits. -/
theorem overflowWraps : Obligations.OverflowWraps := by
  refine ⟨fun o a b => toNat_trunc32 _, fun a b => ⟨?_, ?_, ?_⟩, by decide, by decide⟩
  · rw [aluResult_add, BitVec.ofNat_add]
    simp
  · rw [aluResult_sub]
    change a - b = trunc32 (a.toNat - b.toNat)
    simp [trunc32_sub]
  · rw [aluResult_mul, BitVec.ofNat_mul]
    simp

/-- Settles O46: the `alu` run on the fifteen rows. -/
theorem divisionSignTable : Obligations.DivisionSignTable := by
  unfold Obligations.DivisionSignTable
  decide

/-- Settles O47: the exact identity of R141 survives truncation, and the remainder is not truncated at
all. -/
theorem divisionIdentity : Obligations.DivisionIdentity := by
  intro s t a b d h hc
  obtain ⟨hz, hquot, hrem⟩ := div_of_continued h hc
  have hexact : t.rem.toInt = trem (s.x.get a).toInt (s.x.get b).toInt := by
    rw [hrem, trunc32_trem, toInt_srem_eq_trem]
  rw [hexact]
  refine ⟨?_, abs_trem_lt _ hz, trem_eq_zero_or_sign_eq _ _⟩
  calc t.x.get d * s.x.get b + t.rem
      = trunc32 ((s.x.get b).toInt * tdiv (s.x.get a).toInt (s.x.get b).toInt +
          trem (s.x.get a).toInt (s.x.get b).toInt) := by
        rw [trunc32_add, trunc32_mul, trunc32_toInt, hquot, hrem, BitVec.mul_comm]
    _ = s.x.get a := by rw [mul_tdiv_add_trem, trunc32_toInt]

end Sys2Proof.Proofs
end

section
/-! PROOFS. The statements of spec/43_jumps.md: the range of a jump target, the four jumps from their
bytes to their effect, and the sequential advance. -/

namespace Sys2Proof.Machine

variable {s t : State}

/-! ### Where `pc` stands -/

/-- A byte past `pc` that exists is below the program's end. -/
theorem pc_add_lt_size_of_byteAt {k n : Nat} (h : s.byteAt k = some n) :
    s.pc.toNat + k < s.program.size := by
  obtain ⟨b, hb, -⟩ := Option.map_eq_some_iff.1 h
  exact (byte?_isSome_iff _ _).1 (Option.isSome_of_eq_some hb)

/-- Bytes that decode to an instruction begin below the program's end. -/
theorem pc_lt_size_of_decode {i : Instr} (h : decode s.fetchBytes = .ok i) :
    s.pc.toNat < s.program.size := by
  by_contra hend
  have hnil : s.fetchBytes = [] := bytesFrom_nil ((byte?_eq_none_iff _ _).2 (Nat.le_of_not_lt hend))
  rw [hnil] at h
  cases h

/-! ### The two ends of a jump -/

/-- A jump completes at every exact target the program counter can hold (R161). -/
theorem jump_of_toNat_eq_target {k : JumpKind} {v : Int} {p : Addr}
    (h : (p.toNat : Int) = k.target s.jumpBase v) :
    s.jump k v = .next { s with pc := p, status := .ran } := by
  rw [State.jump, checkTarget_eq_some.2 h]
  rfl

/-- A jump takes the fault exactly for the targets the program counter cannot hold (R161). -/
theorem jump_eq_fault_iff {k : JumpKind} {v : Int} :
    s.jump k v = .next (s.faulted .jumpOutOfRange) ↔
      k.target s.jumpBase v < 0 ∨ 2 ^ 32 ≤ k.target s.jumpBase v := by
  rw [State.jump]
  refine Iff.trans ?_ checkTarget_eq_none
  cases checkTarget (k.target s.jumpBase v) with
  | some p => simp [State.endCycle, CycleOutcome.runAfter]
  | none => simp [State.endCycle, CycleOutcome.runAfter]

/-- A jump completes at its exact target wherever that is in range (R161). -/
theorem jump_of_target_in_range {k : JumpKind} {v : Int} (h0 : 0 ≤ k.target s.jumpBase v)
    (h1 : k.target s.jumpBase v < 2 ^ 32) :
    ∃ p : Addr, (p.toNat : Int) = k.target s.jumpBase v ∧
      s.jump k v = .next { s with pc := p, status := .ran } := by
  obtain ⟨p, hp⟩ : ∃ p : Addr, (p.toNat : Int) = k.target s.jumpBase v :=
    ⟨trunc32 _, by rw [toNat_trunc32, Int.emod_eq_of_lt h0 h1]⟩
  exact ⟨p, hp, jump_of_toNat_eq_target hp⟩

/-- No register holds an absolute target above the range: only a negative one faults (R161). -/
theorem jump_abs_eq_fault_iff {v : Word} :
    s.jump .abs v.toInt = .next (s.faulted .jumpOutOfRange) ↔ v.toInt < 0 := by
  have hv : v.toInt < 2 ^ 31 := v.toInt_lt
  rw [jump_eq_fault_iff, JumpKind.target]
  omega

/-- A register that is not negative is an absolute target in range (R161). -/
theorem jump_abs_of_nonneg {v : Word} (h : 0 ≤ v.toInt) :
    ∃ p : Addr, (p.toNat : Int) = v.toInt ∧
      s.jump .abs v.toInt = .next { s with pc := p, status := .ran } := by
  have hv : v.toInt < 2 ^ 31 := v.toInt_lt
  exact jump_of_target_in_range (k := .abs) h (by rw [JumpKind.target]; omega)

/-! ### JMPE -/

/-- With the flag set JMPE is the absolute jump (R166). -/
theorem exec_jmpe_of_eq_true (r : RegIdx) (h : s.eq = true) :
    exec (.jmpe r) s = s.jump .abs (s.x.get r).toInt :=
  if_pos h

/-- With the flag clear JMPE steps over its padding, and no value of the register faults (R166). -/
theorem exec_jmpe_of_eq_false (r : RegIdx) (h : s.eq = false) :
    exec (.jmpe r) s = .next { s with pc := s.pc + 4, status := .ran } :=
  if_neg (by simp [h])

/-- JMPE faults exactly where it is taken and its register is negative (R161, R166). -/
theorem exec_jmpe_eq_fault_iff (r : RegIdx) :
    exec (.jmpe r) s = .next (s.faulted .jumpOutOfRange) ↔ s.eq = true ∧ (s.x.get r).toInt < 0 := by
  cases he : s.eq with
  | true => simp [exec_jmpe_of_eq_true r he, jump_abs_eq_fault_iff]
  | false => simp [exec_jmpe_of_eq_false r he]

/-! ### Cycles of formats R1 and R1P -/

/-- The cycle of an operation with one register operand whose byte is legal is its instruction. -/
theorem step_of_register {o : Operation} {mk : RegIdx → Instr} (hmk : fetchOperands o = fetchR1 mk)
    (hf : s.Fetches (opcodeMap.code o).toNat) {r : RegIdx} (hr : s.byteAt 1 = some r.val) :
    step s = exec (mk r) s := by
  refine step_of_fetchOperands_ok hf ?_
  rw [hmk, operandBytes_of_register hr]
  exact fetchR1_regByte mk r _

theorem operandFaults_of_fetchR1 {o : Operation} {mk : RegIdx → Instr}
    (hmk : fetchOperands o = fetchR1 mk) : OperandFaults (opcodeMap.code o).toNat 1 :=
  operandFaults_of_fetchesRegisters (by decide) (hmk ▸ fetchesRegisters_R1 mk)

/-- The whole cycle of an operation that jumps by its register, its target counted from `a + 2`. -/
theorem relativeJumpCycle_of_jump {o : Operation} {mk : RegIdx → Instr} {k : JumpKind}
    (hmk : fetchOperands o = fetchR1 mk)
    (hexec : ∀ (s : State) (r : RegIdx), exec (mk r) s = s.jump k (s.x.get r).toInt) :
    RelativeJumpCycle (opcodeMap.code o).toNat fun a v => k.target (a + 2) v := by
  refine ⟨operandFaults_of_fetchR1 hmk, fun s r hf hr => ?_⟩
  rw [step_of_register hmk hf hr, hexec]
  exact ⟨jump_of_target_in_range, jump_eq_fault_iff.2⟩

/-! ### The sequential advance -/

/-- An instruction that falls through and continues has advanced by four (R76, R162). -/
theorem pc_of_fallsThrough {i : Instr} (h : exec i s = .next t) (hi : fallsThrough i = true)
    (hc : t.status.cause = .continued) : t.pc = s.seq 4 := by
  rcases exec_next_cases h with ⟨w, hw, rfl⟩ | ⟨a, o, ho, rfl⟩
  · exact hw.npc hi
  · exact absurd hc ho

/-- An instruction that ends with Halted or IllegalOpcode has advanced by one (R196, R197). -/
theorem pc_of_stop {i : Instr} (h : exec i s = .next t)
    (hc : t.status.cause = .halted ∨ t.status.cause = .illegalOpcode) : t.pc = s.seq 1 := by
  rcases exec_cases i s with ⟨w, -, -, -, he⟩ | ⟨-, he⟩ | ⟨-, he⟩ | ⟨-, he⟩ | ⟨-, he⟩ <;>
    rw [he] at h <;> cases h
  case inl => simp at hc
  case inr.inl | inr.inr.inl => rfl
  case inr.inr.inr.inl | inr.inr.inr.inr => simp at hc

end Sys2Proof.Machine

namespace Sys2Proof.Proofs

open Sys2Proof.Machine

/-! ### What the four jumps do -/

/-- Settles O22: the exact targets of the three kinds, and the two ways of JMPE. -/
theorem jumpResults : Obligations.JumpResults := by
  intro s r p
  refine ⟨jump_of_toNat_eq_target (k := .abs), jump_of_toNat_eq_target (k := .fwd),
    jump_of_toNat_eq_target (k := .back), fun he hp => ?_, exec_jmpe_of_eq_false r⟩
  rw [exec_jmpe_of_eq_true r he]
  exact jump_of_toNat_eq_target (k := .abs) hp

/-- Settles O43: each jump faults exactly where its target is out of range, and with `a + 2` at most 2^31
only JMPB has targets above the range. -/
theorem jumpOutOfRangeExactly : Obligations.JumpOutOfRangeExactly := by
  intro s r hsize hpc
  have hv : (s.x.get r).toInt < 2 ^ 31 := (s.x.get r).toInt_lt
  refine ⟨jump_abs_eq_fault_iff, exec_jmpe_eq_fault_iff r,
    (jump_eq_fault_iff (k := .fwd)).trans ?_, (jump_eq_fault_iff (k := .back)).trans ?_⟩ <;>
  · simp only [JumpKind.target, State.jumpBase, State.source, State.reg, sint]
    omega

/-! ### One cycle of each jump -/

/-- Settles O12: JMP is the absolute jump by its register. -/
theorem jmpCycle : Obligations.JmpCycle := by
  refine ⟨operandFaults_of_fetchR1 (o := .jmp) rfl, fun s r hf hr => ?_⟩
  rw [step_of_register (o := .jmp) rfl hf hr]
  exact ⟨jump_abs_of_nonneg, jump_abs_eq_fault_iff.2⟩

/-- Settles O13: JMPF is the forward jump, and its register byte puts `a + 2` at 2^31 at most. -/
theorem jmpfCycle : Obligations.JmpfCycle := by
  refine ⟨relativeJumpCycle_of_jump (o := .jmpf) (k := .fwd) rfl fun _ _ => rfl,
    fun s r hf hr => ?_⟩
  have hpc := pc_add_lt_size_of_byteAt hr
  have hv : (s.x.get r).toInt < 2 ^ 31 := (s.x.get r).toInt_lt
  have hsize := hf.1
  omega

/-- Settles O14: JMPB is the backward jump; 2^32 is the sum of the two greatest values `a + 2` and `-v`
can have. -/
theorem jmpbCycle : Obligations.JmpbCycle := by
  refine ⟨relativeJumpCycle_of_jump (o := .jmpb) (k := .back) rfl fun _ _ => rfl,
    fun s r hf hr => ?_⟩
  have hpc := pc_add_lt_size_of_byteAt hr
  have hv : -2 ^ 31 ≤ (s.x.get r).toInt := (s.x.get r).le_toInt
  have hsize := hf.1
  omega

/-- Settles O15: the register byte is fetched first, then the flag decides between the absolute jump and
the padding skip. -/
theorem jmpeCycle : Obligations.JmpeCycle := by
  refine ⟨operandFaults_of_fetchR1 (o := .jmpe) rfl, fun s r hf hr => ?_⟩
  rw [step_of_register (o := .jmpe) rfl hf hr]
  refine ⟨exec_jmpe_of_eq_false r, fun he => ?_, fun he hneg => ?_⟩
  · rw [exec_jmpe_of_eq_true r he]
    exact jump_abs_of_nonneg
  · exact (exec_jmpe_eq_fault_iff r).2 ⟨he, hneg⟩

/-! ### The sequential advance -/

/-- Settles O42: an instruction is fetched below 2^31, where the 32-bit sums of the advance are exact. -/
theorem sequentialAdvanceNeverWraps : Obligations.SequentialAdvanceNeverWraps := by
  intro s t i h hi
  have hsize : s.program.size ≤ 2 ^ 31 := size_le_of_step h
  have hpc := pc_lt_size_of_decode hi
  rw [step_eq_exec hsize hpc hi] at h
  have exact_seq {n : Nat} (hn : n ≤ 4) (ht : t.pc = s.seq n) : t.pc.toNat = s.pc.toNat + n := by
    rw [ht, toNat_seq (by omega)]
  refine ⟨fun hf hc => exact_seq (by decide) (pc_of_fallsThrough h hf hc), ?_,
    fun hc => exact_seq (by decide) (pc_of_stop h hc)⟩
  rintro r rfl he
  rw [exec_jmpe_of_eq_false r he] at h
  cases h
  exact exact_seq (by decide) rfl

end Sys2Proof.Proofs
end

section
/-! PROOFS. The statements of spec/44_compare.md: the relations of the `alu` on words, and the six
comparisons from their bytes to their effect. -/

namespace Sys2Proof.Machine

variable {s : State}

/-! ### The relations on words

The ordered ones are the machine's signed comparisons by definition (`BitVec.slt`, `BitVec.sle`). -/

/-- Words are equal exactly when their signed readings are. -/
theorem aluCmp_eq (a b : Word) : aluCmp .eq a.toInt b.toInt = (a == b) :=
  (decide_eq_decide.2 BitVec.toInt_inj).trans (beq_eq_decide a b).symm

theorem aluCmp_neq (a b : Word) : aluCmp .neq a.toInt b.toInt = (a != b) := by
  have hneg : aluCmp .neq a.toInt b.toInt = !aluCmp .eq a.toInt b.toInt := decide_not
  rw [hneg, aluCmp_eq]
  rfl

theorem aluCmp_gt (a b : Word) : aluCmp .gt a.toInt b.toInt = b.slt a := rfl
theorem aluCmp_lt (a b : Word) : aluCmp .lt a.toInt b.toInt = a.slt b := rfl
theorem aluCmp_gte (a b : Word) : aluCmp .gte a.toInt b.toInt = b.sle a := rfl
theorem aluCmp_lte (a b : Word) : aluCmp .lte a.toInt b.toInt = a.sle b := rfl

/-! ### What the six comparisons do -/

/-- The shared cycle of the comparisons always commits the signed relation, whatever `eq` was (R180). -/
theorem compare_eq (o : CmpOp) (a b : RegIdx) (s : State) :
    s.compare o a b = .next { s with
      eq := aluCmp o (s.x.get a).toInt (s.x.get b).toInt, pc := s.pc + 4, status := .ran } :=
  rfl

/-! ### Cycles of format R2P -/

/-- The cycle of an operation of format R2P whose two operand bytes are legal is its instruction; the
padding byte after them may be missing (R79). -/
theorem step_of_two_registers {o : Operation} {mk : RegIdx → RegIdx → Instr}
    (hmk : fetchOperands o = fetchR2 mk) (hf : s.Fetches (opcodeMap.code o).toNat)
    {a b : RegIdx} (ha : s.byteAt 1 = some a.val) (hb : s.byteAt 2 = some b.val) :
    step s = exec (mk a b) s := by
  refine step_of_fetchOperands_ok hf ?_
  rw [hmk, operandBytes_of_register ha, bytesFrom_cons (byte?_eq_regByte hb)]
  exact fetchR2_regByte mk a b _

theorem operandFaults_of_fetchR2 {o : Operation} {mk : RegIdx → RegIdx → Instr}
    (hmk : fetchOperands o = fetchR2 mk) : OperandFaults (opcodeMap.code o).toNat 2 :=
  operandFaults_of_fetchesRegisters (by decide) (hmk ▸ fetchesRegisters_R2 mk)

/-- The whole cycle of an operation of format R2P that runs the shared comparison cycle. -/
theorem compareCycle_of_compare {o : Operation} {mk : RegIdx → RegIdx → Instr} {op : CmpOp}
    (hmk : fetchOperands o = fetchR2 mk)
    (hexec : ∀ (s : State) (a b : RegIdx), exec (mk a b) s = s.compare op a b) :
    CompareCycle (opcodeMap.code o).toNat (aluCmp op) := by
  refine ⟨operandFaults_of_fetchR2 hmk, fun s a b hf ha hb => ?_⟩
  rw [step_of_two_registers hmk hf ha hb, hexec]
  exact compare_eq op a b s

end Sys2Proof.Machine

namespace Sys2Proof.Proofs

open Sys2Proof.Machine

/-- Settles O16: each of the six is the shared comparison cycle with its own relation. -/
theorem comparisonCycles : Obligations.ComparisonCycles :=
  ⟨compareCycle_of_compare (o := .eq) (op := .eq) rfl fun _ _ _ => rfl,
    compareCycle_of_compare (o := .neq) (op := .neq) rfl fun _ _ _ => rfl,
    compareCycle_of_compare (o := .gte) (op := .gte) rfl fun _ _ _ => rfl,
    compareCycle_of_compare (o := .lte) (op := .lte) rfl fun _ _ _ => rfl,
    compareCycle_of_compare (o := .gt) (op := .gt) rfl fun _ _ _ => rfl,
    compareCycle_of_compare (o := .lt) (op := .lt) rfl fun _ _ _ => rfl⟩

/-- Settles O23: the relations of the signed readings are the machine's comparisons of the words. -/
theorem comparisonResults : Obligations.ComparisonResults := by
  intro s a b
  rw [← aluCmp_eq, ← aluCmp_neq, ← aluCmp_gt, ← aluCmp_lt, ← aluCmp_gte, ← aluCmp_lte]
  exact ⟨compare_eq .eq a b s, compare_eq .neq a b s, compare_eq .gt a b s,
    compare_eq .lt a b s, compare_eq .gte a b s, compare_eq .lte a b s⟩

end Sys2Proof.Proofs
end

section
/-! PROOFS. The statements of spec/45_stop.md: what HLT and ILLEGAL leave, and the cycle of HLT from its
byte to the cycle that may follow it. -/

namespace Sys2Proof.Machine

variable {s : State}

/-- The shared stop of HLT and ILLEGAL writes `pc` and the latch and nothing else (R196, R197, R210). -/
theorem stops_seq_one (s : State) (o : CycleOutcome) :
    s.stops (s.seq 1) o = .next { s with pc := s.pc + 1, status := ⟨o.runAfter, o⟩ } :=
  rfl

theorem exec_hlt (s : State) :
    exec .hlt s = .next { s with pc := s.pc + 1, status := ⟨.stopped, .halted⟩ } :=
  stops_seq_one s .halted

theorem exec_illegal (s : State) (op : Byte) :
    exec (.illegal op) s = .next { s with pc := s.pc + 1, status := ⟨.stopped, .illegalOpcode⟩ } :=
  stops_seq_one s .illegalOpcode

/-- The cycle that fetches the byte of HLT is HLT whatever follows the byte: no operand is fetched
(R79, R196). -/
theorem step_eq_exec_hlt (hf : s.Fetches 5) : step s = exec .hlt s :=
  step_of_fetchOperands_ok (o := .hlt) hf rfl

end Sys2Proof.Machine

namespace Sys2Proof.Proofs

open Sys2Proof.Machine

/-- Settles O24: both are the shared stop one byte on, each with its own cause. -/
theorem stopResults : Obligations.StopResults :=
  fun s => ⟨exec_hlt s, exec_illegal s⟩

/-- Settles O17: the byte alone makes the cycle HLT, and the cycle after it reads no `status`. -/
theorem hltCycle : Obligations.HltCycle := by
  intro s hf
  have hstep := (step_eq_exec_hlt hf).trans (exec_hlt s)
  exact ⟨_, hstep, rfl, step_setStatus { s with pc := s.pc + 1 } _⟩

end Sys2Proof.Proofs
end

section
/-! PROOFS. The statements of spec/60_exceptions.md: how a cycle can end, where each stop comes from and
what it leaves, and the codes of the outcomes. -/

namespace Sys2Proof.Machine

variable {s t : State}

/-! ### The opcode byte of a stop -/

/-- Bytes that decode to ILLEGAL begin at `pc` with a byte of 16 or more (R74). -/
theorem byteAt_zero_of_decode_illegal {b : Byte} (h : decode s.fetchBytes = .ok (.illegal b)) :
    ∃ op, s.byteAt 0 = some op ∧ 16 ≤ op := by
  obtain ⟨hwf, rest, hbytes⟩ := (decodeWith_eq_ok_iff opcodeMap_valid).1 h
  have hget : s.fetchBytes[0]? = s.program.byte? (s.pc.toNat + 0) :=
    getElem?_bytesFrom Config.insnBytes s.pc.toNat 0 (by decide)
  rw [← hbytes] at hget
  exact ⟨b.toNat, congrArg (Option.map BitVec.toNat) hget.symm, of_decide_eq_true hwf⟩

/-- Bytes that are rejected below the program's end begin with the byte of an operation that fetches
operands: ILLEGAL and HLT fetch none (R76, R209). -/
theorem byteAt_zero_of_decode_error {r : Reject} (hpc : s.pc.toNat < s.program.size)
    (h : decode s.fetchBytes = .error r) : ∃ op, s.byteAt 0 = some op ∧ op < 16 ∧ op ≠ 5 := by
  obtain ⟨b, hb⟩ := Option.isSome_iff_exists.1 ((byte?_isSome_iff _ _).2 hpc)
  rw [State.fetchBytes, bytesFrom_cons hb] at h
  refine ⟨b.toNat, congrArg (Option.map BitVec.toNat) hb, Nat.lt_of_not_le fun hlarge => ?_,
    fun hhlt => ?_⟩
  · cases h.symm.trans (decodeWith_illegal_cons opcodeMap_valid hlarge _)
  · obtain rfl : b = opcodeMap.code .hlt := BitVec.eq_of_toNat_eq hhlt
    cases h

/-! ### How a cycle ends -/

/-- The opcode bytes whose cycles can end with a fault (the table of R201). -/
def FaultReason.FromOpcode (op : Nat) : FaultReason → Prop
  | .divisionByZero => op = 4
  | .jumpOutOfRange => 6 ≤ op ∧ op ≤ 9
  | .registerOutOfRange | .truncatedInstruction => op < 16 ∧ op ≠ 5

/-- How a cycle from `s` can end, one row of R201 each: where the outcome comes from and the whole state
it leaves. -/
inductive EndsIn (s : State) : State → Prop
  | continued (w : Staged) : EndsIn s ((s.commit w).endCycle .continued)
  | programEnd (hend : s.program.size ≤ s.pc.toNat) :
      EndsIn s { s with status := ⟨.stopped, .programEnd⟩ }
  | halted (hop : s.byteAt 0 = some 5) :
      EndsIn s { s with pc := s.pc + 1, status := ⟨.stopped, .halted⟩ }
  | illegalOpcode (hop : ∃ op, s.byteAt 0 = some op ∧ 16 ≤ op) :
      EndsIn s { s with pc := s.pc + 1, status := ⟨.stopped, .illegalOpcode⟩ }
  | fault (r : FaultReason) (hop : ∃ op, s.byteAt 0 = some op ∧ r.FromOpcode op) :
      EndsIn s (s.faulted r)

/-- A rejected cycle ends with a fault of its operands: its opcode byte is there. -/
theorem endsIn_of_takeReject {r : Reject} (hpc : s.pc.toNat < s.program.size)
    (hr : decode s.fetchBytes = .error r) (h : s.takeReject r = .next t) : EndsIn s t := by
  have hop := byteAt_zero_of_decode_error hpc hr
  cases r with
  | noOpcodeByte =>
    cases h
    exact absurd rfl (cause_ne_programEnd_of_takeReject hpc hr rfl)
  | truncatedInstruction | registerOutOfRange =>
    cases h
    exact .fault _ hop

/-- An instruction completes, stops one byte on, or takes the fault of its own opcode bytes. -/
theorem endsIn_of_exec {i : Instr} (hi : decode s.fetchBytes = .ok i) (h : exec i s = .next t) :
    EndsIn s t := by
  rcases exec_cases i s with ⟨w, -, -, -, he⟩ | ⟨rfl, he⟩ | ⟨⟨b, rfl⟩, he⟩ | ⟨⟨a, b, d, rfl⟩, he⟩ |
    ⟨hjump, he⟩ <;> cases he.symm.trans h
  · exact .continued w
  · exact .halted (byteAt_zero_of_decode hi rfl)
  · exact .illegalOpcode (byteAt_zero_of_decode_illegal hi)
  · exact .fault .divisionByZero ⟨4, byteAt_zero_of_decode hi rfl, rfl⟩
  · have from_code {o : Operation} (ht : i.tag = .op o)
        (hr : FaultReason.FromOpcode (opcodeMap.code o).toNat .jumpOutOfRange) :
        EndsIn s (s.faulted .jumpOutOfRange) := .fault _ ⟨_, byteAt_zero_of_decode hi ht, hr⟩
    rcases hjump with ⟨r, rfl⟩ | ⟨r, rfl⟩ | ⟨r, rfl⟩ | ⟨r, rfl⟩ <;>
      exact from_code rfl ⟨by decide, by decide⟩

/-- Every cycle ends in one of the rows of R201. -/
theorem endsIn_of_step (h : step s = .next t) : EndsIn s t := by
  rcases step_cases (size_le_of_step h) with ⟨hend, he⟩ | ⟨hpc, r, hr, he⟩ | ⟨-, i, hi, he⟩
  · cases he.symm.trans h
    exact .programEnd hend
  · exact endsIn_of_takeReject hpc hr (he.symm.trans h)
  · exact endsIn_of_exec hi (he.symm.trans h)

/-- A fault comes from an opcode byte of its row and leaves everything but `status` (R201, R206). -/
theorem fault_of_step {r : FaultReason} (h : step s = .next t) (hc : t.status.cause = .fault r) :
    t = s.faulted r ∧ ∃ op, s.byteAt 0 = some op ∧ r.FromOpcode op := by
  cases endsIn_of_step h with
  | fault r' hop =>
    cases hc
    exact ⟨rfl, hop⟩
  | continued | programEnd | halted | illegalOpcode => cases hc

theorem halted_of_step (h : step s = .next t) (hc : t.status.cause = .halted) :
    t = { s with pc := s.pc + 1, status := ⟨.stopped, .halted⟩ } ∧ s.byteAt 0 = some 5 := by
  cases endsIn_of_step h with
  | halted hop => exact ⟨rfl, hop⟩
  | continued | programEnd | illegalOpcode | fault => cases hc

theorem illegalOpcode_of_step (h : step s = .next t) (hc : t.status.cause = .illegalOpcode) :
    t = { s with pc := s.pc + 1, status := ⟨.stopped, .illegalOpcode⟩ } ∧
      ∃ op, s.byteAt 0 = some op ∧ 16 ≤ op := by
  cases endsIn_of_step h with
  | illegalOpcode hop => exact ⟨rfl, hop⟩
  | continued | programEnd | halted | fault => cases hc

theorem programEnd_of_step (h : step s = .next t) (hc : t.status.cause = .programEnd) :
    t = { s with status := ⟨.stopped, .programEnd⟩ } := by
  cases endsIn_of_step h with
  | programEnd => rfl
  | continued | halted | illegalOpcode | fault => cases hc

/-! ### The codes of the outcomes -/

/-- The outcome a 3-bit code stands for, the table of R201 read backwards. -/
def CycleOutcome.ofCode (c : BitVec 3) : CycleOutcome :=
  match c.toNat with
  | 0 => .continued
  | 1 => .halted
  | 2 => .illegalOpcode
  | 3 => .programEnd
  | 4 => .fault .registerOutOfRange
  | 5 => .fault .divisionByZero
  | 6 => .fault .truncatedInstruction
  | _ => .fault .jumpOutOfRange

@[simp] theorem ofCode_code (o : CycleOutcome) : CycleOutcome.ofCode o.code = o := by
  cases o with
  | fault r => cases r <;> rfl
  | continued | halted | illegalOpcode | programEnd => rfl

@[simp] theorem code_ofCode : ∀ c : BitVec 3, (CycleOutcome.ofCode c).code = c := by
  decide

end Sys2Proof.Machine

namespace Sys2Proof.Proofs

open Sys2Proof.Machine

/-! ### What a stop leaves -/

/-- Settles O35: a fault is the end of a cycle that commits nothing. -/
theorem faultsArePrecise : Obligations.FaultsArePrecise :=
  fun _ _ _ h hc => (fault_of_step h hc).1

/-- Settles O36: the three stops of the document, each from its own row. -/
theorem documentStopsChangeOnlyPc : Obligations.DocumentStopsChangeOnlyPc :=
  fun _ _ h => ⟨fun hc => (halted_of_step h hc).1, fun hc => (illegalOpcode_of_step h hc).1,
    programEnd_of_step h⟩

/-- Settles O38: IllegalOpcode and the faults are the only failures, and neither commits a register, `rem`
or `eq`. -/
theorem failureLeavesTheRegisters : Obligations.FailureLeavesTheRegisters := by
  intro s t h hfail
  cases endsIn_of_step h with
  | continued | programEnd | halted => exact absurd rfl hfail
  | illegalOpcode | fault => exact ⟨rfl, rfl, rfl⟩

/-- Settles O40: these stops leave everything but `status`, which the next cycle does not read. -/
theorem unmovedStopsRepeat : Obligations.UnmovedStopsRepeat := by
  intro s t h hc
  obtain ⟨v, rfl⟩ : ∃ v, t = { s with status := v } := by
    rcases hc with hend | ⟨r, hr⟩
    · exact ⟨_, programEnd_of_step h hend⟩
    · exact ⟨_, faultsArePrecise s t r h hr⟩
  exact (step_setStatus s v).trans h

/-! ### Where a stop comes from -/

/-- Settles O37: the row of R201 a cycle ended in names its cause, and ProgramEnd, HLT and ILLEGAL end
no other way. -/
theorem stopsHaveTheirCauses : Obligations.StopsHaveTheirCauses := by
  intro s t h
  have hsize := size_le_of_step h
  refine ⟨⟨size_le_pc_of_step_programEnd h, fun hend => ?_⟩,
    ⟨fun hc => (halted_of_step h hc).2, fun hop => ?_⟩,
    ⟨fun hc => (illegalOpcode_of_step h hc).2, fun ⟨op, hop, hlarge⟩ => ?_⟩,
    fun hc => ?_, fun hc => (fault_of_step h hc).2, fun hc => ?_⟩
  · cases h.symm.trans (step_programEnd hsize hend)
    rfl
  · cases h.symm.trans ((step_eq_exec_hlt ⟨hsize, hop⟩).trans (exec_hlt s))
    rfl
  · cases h.symm.trans (step_illegal ⟨hsize, hop⟩ hlarge)
    rfl
  · obtain ⟨-, op, hop, rfl⟩ := fault_of_step h hc
    exact hop
  · rcases hc with hc | hc <;> exact (fault_of_step h hc).2

/-! ### Codes -/

/-- Settles O48: `ofCode` is inverse to `code` on both sides. -/
theorem outcomeCodes : Obligations.OutcomeCodes :=
  ⟨rfl, rfl, rfl, rfl, rfl, rfl, rfl, rfl, rfl, rfl,
    fun c => ⟨.ofCode c, code_ofCode c, fun o ho => ho ▸ (ofCode_code o).symm⟩⟩

end Sys2Proof.Proofs
end

section
/-! PROOFS. The statements of spec/70_reset_and_hazards.md: what the host's operations keep, and what a
cycle after HLT or ILLEGAL executes. -/

namespace Sys2Proof.Machine

variable {s t : State}

/-! ### The host's operations and the invariant -/

theorem nextState_eq_some_iff {o : Host.Outcome State Fault Refusal} :
    nextState o = some t ↔ o = .next t := by
  cases o <;> simp [nextState]

/-- The program an assignment makes is canonical and within the bound, and `status` stays (R52, R62). -/
theorem inv_of_assignProgram {bs : List Byte} (hs : s.Inv) (h : s.assignProgram bs = .next t) :
    t.Inv := by
  obtain ⟨-, -, hstatus⟩ := hs
  rcases Nat.lt_or_ge Config.progMaxLen bs.length with hlong | hfits
  · cases (assignProgram_of_lt_length hlong).symm.trans h
  · cases (assignProgram_of_length_le hfits).symm.trans h
    exact ⟨wf_ofBytes bs, hfits, hstatus⟩

/-- A run starts with `status` RUNNING and Continue, whatever it was (R113). -/
theorem inv_beginRun (hs : s.Inv) : s.beginRun.Inv := by
  obtain ⟨hwf, hsize, -⟩ := hs
  exact ⟨hwf, hsize, iff_of_true rfl rfl⟩

/-- Cycles done one after another keep the invariant, as each of them does. -/
theorem inv_of_runCycles {fuel : Nat} (hs : s.Inv) (h : runCycles fuel s = some t) : t.Inv := by
  induction fuel generalizing s with
  | zero => cases h
  | succ fuel ih =>
    obtain ⟨_, u, hn, hstep, hrest⟩ := runCycles_cases h
    cases hn
    have hu : u.Inv := Proofs.stepKeepsInv s u hs hstep
    rcases hrest with ⟨-, rfl⟩ | ⟨-, hrun⟩
    · exact hu
    · exact ih hu hrun

theorem hostSteps_cons_eq_some_iff {o : HostOp} {os : List HostOp} :
    s.hostSteps (o :: os) = some t ↔ ∃ u, s.hostStep o = some u ∧ u.hostSteps os = some t := by
  rw [State.hostSteps]
  cases s.hostStep o <;> simp

/-! ### The cycle after HLT or ILLEGAL -/

/-- HLT and ILLEGAL alike move `pc` one byte on and leave the registers and the program (R196, R197). -/
theorem step_hlt_or_illegal {op : Nat} (hf : s.Fetches op) (hop : op = 5 ∨ 16 ≤ op) :
    ∃ h, step s = .next h ∧ h.pc = s.pc + 1 ∧ h.x = s.x ∧ h.program = s.program := by
  rcases hop with rfl | hlarge
  · exact ⟨_, (step_eq_exec_hlt hf).trans (exec_hlt s), rfl, rfl, rfl⟩
  · exact ⟨_, step_illegal hf hlarge, rfl, rfl, rfl⟩

/-- Below the program's end one more byte does not wrap `pc`. -/
theorem toNat_pc_add_one {op : Nat} (hf : s.Fetches op) : (s.pc + 1).toNat = s.pc.toNat + 1 := by
  obtain ⟨hsize, hbyte⟩ := hf
  have hpc := pc_add_lt_size_of_byteAt hbyte
  exact toNat_seq (s := s) (n := 1) (by omega)

/-- Seen from one byte on, the program's bytes are one place nearer. -/
theorem byteAt_of_toNat_pc_succ (hprog : t.program = s.program)
    (hpc : t.pc.toNat = s.pc.toNat + 1) (k : Nat) : t.byteAt k = s.byteAt (1 + k) := by
  rw [State.byteAt, hprog, hpc, Nat.add_assoc]

/-- A LOAD cut off by the program's end, with register byte 0 or none: the missing byte is the fault
wherever the end falls (R106, R109). -/
theorem step_load_zero_truncated (hf : s.Fetches 0) (hreg : ∀ v, s.byteAt 1 = some v → v = 0)
    (hend : s.program.size ≤ s.pc.toNat + 3) : step s = .next (s.faulted .truncatedInstruction) := by
  cases hd : s.byteAt 1 with
  | none =>
    have hshort := (byte?_eq_none_iff _ _).1 (Option.map_eq_none_iff.1 hd)
    obtain ⟨hfaults, -, -⟩ := Proofs.loadCycle
    exact (hfaults s hf 1 le_rfl le_rfl fun j hj hlt => absurd hlt (Nat.not_lt.2 hj)).1 hshort
  | some v =>
    obtain rfl := hreg v hd
    exact step_load_truncated (d := 0) hf hd hend

end Sys2Proof.Machine

namespace Sys2Proof.Proofs

open Sys2Proof.Machine

/-- Settles O52: the invariant speaks of the program and `status` only, so a preset cannot break it;
each operation that writes one of them keeps it. -/
theorem hostKeepsInv : Obligations.HostKeepsInv := by
  intro s o t hs h
  cases o with
  | reset =>
    cases h
    exact resetSatisfiesInv
  | assign bs => exact inv_of_assignProgram hs (nextState_eq_some_iff.1 h)
  | presetReg _ _ | presetPc _ | presetRem _ | presetEq _ =>
    cases h
    exact hs
  | runOnce => exact stepKeepsInv s t hs (nextState_eq_some_iff.1 h)
  | run fuel => exact inv_of_runCycles (inv_beginRun hs) h

/-- Settles O57: by induction on the sequence, each operation keeping the invariant. -/
theorem hostSequencesKeepInv : Obligations.HostSequencesKeepInv := by
  intro s ops t hs h
  induction ops generalizing s with
  | nil =>
    cases h
    exact hs
  | cons o os ih =>
    obtain ⟨u, hu, hrest⟩ := hostSteps_cons_eq_some_iff.1 h
    exact ih u (hostKeepsInv s o u hs hu) hrest

/-- Settles O54: a register preset is one write of the register file, the others one field each. -/
theorem presetsTouchOneElement : Obligations.PresetsTouchOneElement :=
  fun s r v _ _ =>
    ⟨⟨reg_setReg_same s r v, fun q hq => reg_setReg_other s r q v hq, rfl⟩, rfl, rfl, rfl⟩

/-- Settles O41: the cycle after the stop is the ordinary one a byte on, where the program has ended or
zero padding is the opcode byte of LOAD. -/
theorem steppingOnExecutesPadding : Obligations.SteppingOnExecutesPadding := by
  intro s op hf hop
  obtain ⟨h, hstep, hpc, hx, hprog⟩ := step_hlt_or_illegal hf hop
  have hpcNat : h.pc.toNat = s.pc.toNat + 1 := (congrArg BitVec.toNat hpc).trans (toNat_pc_add_one hf)
  have hbyte (k : Nat) : h.byteAt k = s.byteAt (1 + k) := byteAt_of_toNat_pc_succ hprog hpcNat k
  have hsize : h.program.size ≤ 2 ^ 31 := by
    rw [hprog]
    exact hf.1
  refine ⟨h, hstep, hpc, fun hend => ?_, fun hzero hreg hend => ?_, fun n hzero hreg hhi hlo => ?_⟩
  · exact step_programEnd hsize (by rwa [hprog, hpcNat])
  · refine step_load_zero_truncated ⟨hsize, (hbyte 0).trans hzero⟩ (fun v hv => ?_) ?_
    · exact hreg v ((hbyte 1).symm.trans hv)
    · rw [hprog, hpcNat]
      omega
  · have hload := step_load (d := 0) ⟨hsize, (hbyte 0).trans hzero⟩ ((hbyte 1).trans hreg)
      ((hbyte 2).trans hhi) ((hbyte 3).trans hlo)
    rw [hload, hx, hpc, BitVec.add_assoc, Nat.zero_mul, Nat.zero_add]
    rfl

end Sys2Proof.Proofs
end
